-- ==== Sys2Proof/Word.lean ====
section
/-! DEFINITION. The byte and the byte sequence (spec/00_scope.md R12, R13): every access of the block
is one byte wide (spec/20_memory.md R57). -/

namespace Sys2Proof

/-- A byte: an unsigned 8-bit value, bit 0 the least significant (R12). -/
abbrev Byte := BitVec 8

/-- A byte sequence, element 0 the earliest in the stream (R13, R52). -/
abbrev Bytes := List Byte

end Sys2Proof
end

