-- ==== Sys2Proof/Config.lean ====
section
/-! DEFINITION. The implementation parameters of spec/00_scope.md R6. The two numeric ones are plain
data that the state carries unchanged (log entry 1); the two text conversions are OPEN, lie outside
the block (R11) and are constants without a body, so that nothing can be proved about their values. -/

namespace Sys2Proof

/-- The parameters fixed when an instance is made (R6, R36, R204). -/
structure Params where
  /-- `BODY_CAPACITY`: the largest body the decoder's buffer can hold, in bytes (R7). -/
  bodyCapacity : Nat
  /-- `ENC_MASK_SUPPORTED`: whether the encoder performs mask-key injection (R9). -/
  encMaskSupported : Bool
  deriving DecidableEq, Repr

/-- The defaults of R6: `BODY_CAPACITY` = 2^32 − 1 and `ENC_MASK_SUPPORTED` = false. -/
def Params.standard : Params where
  bodyCapacity := 2 ^ 32 - 1
  encMaskSupported := false

/-- `textEncode` (R6, R11): the host's conversion of a text body to bytes, OPEN (log entry 11). -/
opaque Config.textEncode : String → Bytes

/-- `textDecode` (R6, R11, R213): the consumer's conversion of a Text body, which may fail, OPEN
(log entry 11). -/
opaque Config.textDecode : Bytes → Option String

end Sys2Proof
end

