-- ==== Sys2Proof/Syntax.lean ====
section
/-! DEFINITION. What the host can present to the block: the encoder's frame record
(spec/30_encoding.md R82), one constructor of `Instr` for every row of spec/opcode_table.json, and
the words the rows are encoded by (R95, R71 to R74). -/

namespace Sys2Proof

/-- Four key bytes, `k0` the first on the wire (R54, R75); also the shape of the KEY buffer (R28). -/
structure Key where
  k0 : Byte
  k1 : Byte
  k2 : Byte
  k3 : Byte
  deriving DecidableEq, Repr

/-- The opcode field of a frame record: `Absent | Num(n : Int) | NonNumeric` (R82, R18). -/
inductive OpcodeIn where
  | absent
  | num (n : Int)
  | nonNumeric
  deriving DecidableEq, Repr

/-- The body field of a frame record: `Text(bytes) | Binary(bytes) | Invalid` (R82). -/
inductive BodyIn where
  | text (bs : Bytes)
  | binary (bs : Bytes)
  | invalid
  deriving DecidableEq, Repr

/-- The encoder's input record `FrameIn` (R82). `none` is the spec's `Absent`. -/
structure FrameIn where
  fin : Option Bool
  opcode : OpcodeIn
  mask : Option Bool
  body : BodyIn
  key : Option Key
  deriving DecidableEq, Repr

/-- One constructor for each row of spec/opcode_table.json, in the table's order. -/
inductive Instr where
  /-- DEC_FEED (R102): a binary chunk of any length. -/
  | decFeed (chunk : Bytes)
  /-- DEC_END (R103): the end-of-stream sentinel. -/
  | decEnd
  /-- DEC_INVALID (R101): a value that is neither binary nor the sentinel. -/
  | decInvalid
  /-- DEC_RESET (R200): construction of the decoder. -/
  | decReset
  /-- ENC_FRAME (R142): one frame record. -/
  | encFrame (f : FrameIn)
  /-- ENC_END (R141): the end-of-stream sentinel. -/
  | encEnd
  /-- ENC_KIND_RESERVED (R95): the encoder token kind that no token has. -/
  | encKindReserved
  /-- ENC_RESET (R201): construction of the encoder. -/
  | encReset
  /-- UOP_FLAGS (R107): a byte in AWAIT_FLAGS. -/
  | uopFlags (b : Byte)
  /-- UOP_LEN_SHORT (R108): MASK bit and a literal length, 0 to 125. -/
  | uopLenShort (m : Bool) (l : BitVec 7)
  /-- UOP_LEN_EXT16 (R109): MASK bit. -/
  | uopLenExt16 (m : Bool)
  /-- UOP_LEN_EXT64 (R110): MASK bit. -/
  | uopLenExt64 (m : Bool)
  /-- UOP_EXT_LEN (R111): an extended-length byte. -/
  | uopExtLen (b : Byte)
  /-- UOP_KEY (R112): a key byte. -/
  | uopKey (b : Byte)
  /-- UOP_BODY (R113): an unmasked payload byte. -/
  | uopBody (b : Byte)
  /-- UOP_MASKED_BODY (R114): a masked payload byte. -/
  | uopMaskedBody (b : Byte)
  /-- UOP_RESERVED_6 (R90). -/
  | uopReserved6 (b : Byte)
  /-- UOP_RESERVED_7 (R90). -/
  | uopReserved7 (b : Byte)
  /-- WIRE_HDR0 (R71): header byte 0 as FIN, RSV, OPCODE. -/
  | wireHdr0 (f : Bool) (r : BitVec 3) (o : BitVec 4)
  /-- WIRE_HDR1_SHORT (R72): header byte 1 with an inline length, 0 to 125. -/
  | wireHdr1Short (m : Bool) (l : BitVec 7)
  /-- WIRE_HDR1_EXT16 (R73): header byte 1 and the 16-bit length that follows it. -/
  | wireHdr1Ext16 (m : Bool) (len : BitVec 16)
  /-- WIRE_HDR1_EXT64 (R74): header byte 1 and the 64-bit length that follows it. -/
  | wireHdr1Ext64 (m : Bool) (len : BitVec 64)
  /-- OPCODE_0 to OPCODE_F (R78): header byte 0 with that opcode, FIN and RSV free. -/
  | opcode0 (f : Bool) (r : BitVec 3)
  | opcode1 (f : Bool) (r : BitVec 3)
  | opcode2 (f : Bool) (r : BitVec 3)
  | opcode3 (f : Bool) (r : BitVec 3)
  | opcode4 (f : Bool) (r : BitVec 3)
  | opcode5 (f : Bool) (r : BitVec 3)
  | opcode6 (f : Bool) (r : BitVec 3)
  | opcode7 (f : Bool) (r : BitVec 3)
  | opcode8 (f : Bool) (r : BitVec 3)
  | opcode9 (f : Bool) (r : BitVec 3)
  | opcodeA (f : Bool) (r : BitVec 3)
  | opcodeB (f : Bool) (r : BitVec 3)
  | opcodeC (f : Bool) (r : BitVec 3)
  | opcodeD (f : Bool) (r : BitVec 3)
  | opcodeE (f : Bool) (r : BitVec 3)
  | opcodeF (f : Bool) (r : BitVec 3)
  deriving DecidableEq, Repr

/-- A word of the opcode table in its format (R95), with the operand that rides beside it on the
typed port (R81, R82) or after it on the wire (R73, R74). The format is part of the word: rows of
different formats share bit patterns (log entry 5). -/
inductive PortWord where
  /-- format dec-token: the 2-bit kind, and the chunk (empty for every kind but Feed) -/
  | decToken (k : BitVec 2) (chunk : Bytes)
  /-- format enc-token: the 2-bit kind, and the record (for kind Encode only) -/
  | encToken (k : BitVec 2) (f : Option FrameIn)
  /-- format uop: the selector `dstate<<8 | b` -/
  | uop (w : BitVec 11)
  /-- format hdr0, the row WIRE_HDR0 -/
  | hdr0 (b : Byte)
  /-- format hdr1, with the extended-length bytes -/
  | hdr1 (b : Byte) (ext : Bytes)
  /-- format hdr0, the rows OPCODE_0 to OPCODE_F -/
  | opcodeByte (b : Byte)
  deriving DecidableEq, Repr

end Sys2Proof
end

