-- ==== Sys2Proof/WellFormed.lean ====
section
/-! DEFINITION. Which terms of `Instr` are instructions of the table: the conditions its rows carry
and the encoder's port precondition. -/

namespace Sys2Proof

/-- The number of body bytes a record carries. -/
def BodyIn.size : BodyIn → Nat
  | .text bs => bs.length
  | .binary bs => bs.length
  | .invalid => 0

/-- The encoder's port precondition: a body is shorter than 2^64 bytes (R142, D22). -/
def FrameIn.fits (f : FrameIn) : Bool := decide (f.body.size < 2 ^ 64)

/-- The condition of the short length forms: LEN7 is 0 to 125 (R72, R93, R108). -/
def shortLength (l : BitVec 7) : Bool := decide (l.toNat ≤ 125)

/-- The well-formed instructions. -/
def Instr.wellFormed : Instr → Bool
  | .decFeed _ => true
  | .decEnd => true
  | .decInvalid => true
  | .decReset => true
  | .encFrame f => f.fits
  | .encEnd => true
  | .encKindReserved => true
  | .encReset => true
  | .uopFlags _ => true
  | .uopLenShort _ l => shortLength l
  | .uopLenExt16 _ => true
  | .uopLenExt64 _ => true
  | .uopExtLen _ => true
  | .uopKey _ => true
  | .uopBody _ => true
  | .uopMaskedBody _ => true
  | .uopReserved6 _ => true
  | .uopReserved7 _ => true
  | .wireHdr0 _ _ _ => true
  | .wireHdr1Short _ l => shortLength l
  | .wireHdr1Ext16 _ _ => true
  | .wireHdr1Ext64 _ _ => true
  | .opcode0 _ _ => true
  | .opcode1 _ _ => true
  | .opcode2 _ _ => true
  | .opcode3 _ _ => true
  | .opcode4 _ _ => true
  | .opcode5 _ _ => true
  | .opcode6 _ _ => true
  | .opcode7 _ _ => true
  | .opcode8 _ _ => true
  | .opcode9 _ _ => true
  | .opcodeA _ _ => true
  | .opcodeB _ _ => true
  | .opcodeC _ _ => true
  | .opcodeD _ _ => true
  | .opcodeE _ _ => true
  | .opcodeF _ _ => true

end Sys2Proof
end

