-- ==== Sys2Proof/Decode.lean ====
section
/-! DEFINITION. The header bytes and big-endian lengths of the wire format (spec/30_encoding.md R71 to
R74), the decoder from words to instructions, total and rejecting by name, and the encoder back. -/

namespace Sys2Proof

/-! ### Fields of a header byte (R55, R70 to R72) -/

/-- Bit 7 of a byte: FIN in header byte 0, MASK in header byte 1 (R12, R55). -/
def bit7 (b : Byte) : Bool := b.getLsbD 7

/-- Bits 6 to 4 of a byte: RSV in header byte 0 (R70). -/
def bits6to4 (b : Byte) : BitVec 3 := b.extractLsb' 4 3

/-- Bits 3 to 0 of a byte, `b & 0xF`: OPCODE (R55). -/
def bits3to0 (b : Byte) : BitVec 4 := b.extractLsb' 0 4

/-- Bits 6 to 0 of a byte, `b & 0x7F`: LEN7 (R55, R72). -/
def bits6to0 (b : Byte) : BitVec 7 := b.extractLsb' 0 7

/-- Header byte 0 is `FIN<<7 | RSV<<4 | OPCODE` (R71). -/
def hdr0Byte (f : Bool) (r : BitVec 3) (o : BitVec 4) : Byte :=
  ((BitVec.ofBool f).setWidth 8 <<< 7) ||| (r.setWidth 8 <<< 4) ||| o.setWidth 8

/-- Header byte 1 is `MASK<<7 | LEN7` (R72). -/
def hdr1Byte (m : Bool) (l : BitVec 7) : Byte :=
  ((BitVec.ofBool m).setWidth 8 <<< 7) ||| l.setWidth 8

/-! ### Big-endian lengths (R13, R53, R73, R74) -/

/-- `BE2(v) = [v>>8 & 0xFF, v & 0xFF]` (R13). -/
def be2 (v : Nat) : Bytes := [BitVec.ofNat 8 (v >>> 8), BitVec.ofNat 8 v]

/-- `BE4(v)`: the 4 bytes of v < 2^32, most significant first (R13). -/
def be4 (v : Nat) : Bytes :=
  [BitVec.ofNat 8 (v >>> 24), BitVec.ofNat 8 (v >>> 16), BitVec.ofNat 8 (v >>> 8), BitVec.ofNat 8 v]

/-- The EXT64 bytes of a length: `BE4(L div 2^32) ++ BE4(L mod 2^32)` (R74, R80). -/
def be8 (v : Nat) : Bytes := be4 (v / 2 ^ 32) ++ be4 (v % 2 ^ 32)

/-- `EXT16 = (e0 << 8) | e1` (R73). -/
def ext16Value (e0 e1 : Byte) : BitVec 16 := (e0.setWidth 16 <<< 8) ||| e1.setWidth 16

/-- `EXT64 = (e0<<56) | (e1<<48) | … | e7` (R74). -/
def ext64Value (e0 e1 e2 e3 e4 e5 e6 e7 : Byte) : BitVec 64 :=
  (e0.setWidth 64 <<< 56) ||| (e1.setWidth 64 <<< 48) ||| (e2.setWidth 64 <<< 40)
    ||| (e3.setWidth 64 <<< 32) ||| (e4.setWidth 64 <<< 24) ||| (e5.setWidth 64 <<< 16)
    ||| (e6.setWidth 64 <<< 8) ||| e7.setWidth 64

/-! ### Decoding -/

/-- Why a word is rejected. -/
inductive DecodeError where
  /-- an Encode token without its record (R82) -/
  | operandMissing
  /-- a chunk or a record beside a kind that carries none (R81, R82) -/
  | operandUnexpected
  /-- header byte 1 followed by another number of length bytes than its LEN7 asks for (R72) -/
  | extensionWrong
  /-- a record whose body has 2^64 bytes or more, which the port cannot carry (R142, D22) -/
  | bodyTooLong
  deriving DecidableEq, Repr

/-- Decoder tokens by their 2-bit kind (R95). -/
def decodeDecToken (k : BitVec 2) (chunk : Bytes) : Except DecodeError Instr :=
  if k = 0 then .ok (.decFeed chunk)
  else if chunk ≠ [] then .error .operandUnexpected
  else if k = 1 then .ok .decEnd
  else if k = 2 then .ok .decInvalid
  else .ok .decReset

/-- Encoder tokens by their 2-bit kind (R95), with the port precondition of R142. -/
def decodeEncToken (k : BitVec 2) (f : Option FrameIn) : Except DecodeError Instr :=
  match f with
  | some f =>
    if k = 0 then (if f.fits then .ok (.encFrame f) else .error .bodyTooLong)
    else .error .operandUnexpected
  | none =>
    if k = 0 then .error .operandMissing
    else if k = 1 then .ok .encEnd
    else if k = 2 then .ok .encKindReserved
    else .ok .encReset

/-- The dstate field of a selector word: bits 10 to 8 (R95). -/
def selectorTag (w : BitVec 11) : BitVec 3 := w.extractLsb' 8 3

/-- The input byte of a selector word: bits 7 to 0 (R95). -/
def selectorByte (w : BitVec 11) : Byte := w.extractLsb' 0 8

/-- The length-byte micro-operation that bits 6 to 0 select in AWAIT_LEN (R93). -/
def decodeLenByte (b : Byte) : Instr :=
  if shortLength (bits6to0 b) then .uopLenShort (bit7 b) (bits6to0 b)
  else if bits6to0 b = 126 then .uopLenExt16 (bit7 b)
  else .uopLenExt64 (bit7 b)

/-- The micro-operation map (R93): every selector word is exactly one row. -/
def decodeUop (w : BitVec 11) : Instr :=
  match (selectorTag w).toNat with
  | 0 => .uopFlags (selectorByte w)
  | 1 => decodeLenByte (selectorByte w)
  | 2 => .uopExtLen (selectorByte w)
  | 3 => .uopKey (selectorByte w)
  | 4 => .uopBody (selectorByte w)
  | 5 => .uopMaskedBody (selectorByte w)
  | 6 => .uopReserved6 (selectorByte w)
  | _ => .uopReserved7 (selectorByte w)

/-- Header byte 1 by its LEN7, with the length bytes that follow it (R72 to R74). -/
def decodeHdr1 (b : Byte) (ext : Bytes) : Except DecodeError Instr :=
  if shortLength (bits6to0 b) then
    match ext with
    | [] => .ok (.wireHdr1Short (bit7 b) (bits6to0 b))
    | _ => .error .extensionWrong
  else if bits6to0 b = 126 then
    match ext with
    | [e0, e1] => .ok (.wireHdr1Ext16 (bit7 b) (ext16Value e0 e1))
    | _ => .error .extensionWrong
  else
    match ext with
    | [e0, e1, e2, e3, e4, e5, e6, e7] =>
      .ok (.wireHdr1Ext64 (bit7 b) (ext64Value e0 e1 e2 e3 e4 e5 e6 e7))
    | _ => .error .extensionWrong

/-- Header byte 0 by its opcode value (R78). -/
def decodeOpcodeByte (b : Byte) : Instr :=
  match (bits3to0 b).toNat with
  | 0 => .opcode0 (bit7 b) (bits6to4 b)
  | 1 => .opcode1 (bit7 b) (bits6to4 b)
  | 2 => .opcode2 (bit7 b) (bits6to4 b)
  | 3 => .opcode3 (bit7 b) (bits6to4 b)
  | 4 => .opcode4 (bit7 b) (bits6to4 b)
  | 5 => .opcode5 (bit7 b) (bits6to4 b)
  | 6 => .opcode6 (bit7 b) (bits6to4 b)
  | 7 => .opcode7 (bit7 b) (bits6to4 b)
  | 8 => .opcode8 (bit7 b) (bits6to4 b)
  | 9 => .opcode9 (bit7 b) (bits6to4 b)
  | 10 => .opcodeA (bit7 b) (bits6to4 b)
  | 11 => .opcodeB (bit7 b) (bits6to4 b)
  | 12 => .opcodeC (bit7 b) (bits6to4 b)
  | 13 => .opcodeD (bit7 b) (bits6to4 b)
  | 14 => .opcodeE (bit7 b) (bits6to4 b)
  | _ => .opcodeF (bit7 b) (bits6to4 b)

/-- The decoder: total on every word of every format. -/
def decode : PortWord → Except DecodeError Instr
  | .decToken k chunk => decodeDecToken k chunk
  | .encToken k f => decodeEncToken k f
  | .uop w => .ok (decodeUop w)
  | .hdr0 b => .ok (.wireHdr0 (bit7 b) (bits6to4 b) (bits3to0 b))
  | .hdr1 b ext => decodeHdr1 b ext
  | .opcodeByte b => .ok (decodeOpcodeByte b)

/-! ### Encoding -/

/-- The selector word `dstate<<8 | b` (R95). -/
def selectorWord (t : BitVec 3) (b : Byte) : BitVec 11 :=
  (t.setWidth 11 <<< 8) ||| b.setWidth 11

/-- The word of an instruction, written from the table's rows. -/
def encode : Instr → PortWord
  | .decFeed chunk => .decToken 0 chunk
  | .decEnd => .decToken 1 []
  | .decInvalid => .decToken 2 []
  | .decReset => .decToken 3 []
  | .encFrame f => .encToken 0 (some f)
  | .encEnd => .encToken 1 none
  | .encKindReserved => .encToken 2 none
  | .encReset => .encToken 3 none
  | .uopFlags b => .uop (selectorWord 0 b)
  | .uopLenShort m l => .uop (selectorWord 1 (hdr1Byte m l))
  | .uopLenExt16 m => .uop (selectorWord 1 (hdr1Byte m 126))
  | .uopLenExt64 m => .uop (selectorWord 1 (hdr1Byte m 127))
  | .uopExtLen b => .uop (selectorWord 2 b)
  | .uopKey b => .uop (selectorWord 3 b)
  | .uopBody b => .uop (selectorWord 4 b)
  | .uopMaskedBody b => .uop (selectorWord 5 b)
  | .uopReserved6 b => .uop (selectorWord 6 b)
  | .uopReserved7 b => .uop (selectorWord 7 b)
  | .wireHdr0 f r o => .hdr0 (hdr0Byte f r o)
  | .wireHdr1Short m l => .hdr1 (hdr1Byte m l) []
  | .wireHdr1Ext16 m len => .hdr1 (hdr1Byte m 126) (be2 len.toNat)
  | .wireHdr1Ext64 m len => .hdr1 (hdr1Byte m 127) (be8 len.toNat)
  | .opcode0 f r => .opcodeByte (hdr0Byte f r 0)
  | .opcode1 f r => .opcodeByte (hdr0Byte f r 1)
  | .opcode2 f r => .opcodeByte (hdr0Byte f r 2)
  | .opcode3 f r => .opcodeByte (hdr0Byte f r 3)
  | .opcode4 f r => .opcodeByte (hdr0Byte f r 4)
  | .opcode5 f r => .opcodeByte (hdr0Byte f r 5)
  | .opcode6 f r => .opcodeByte (hdr0Byte f r 6)
  | .opcode7 f r => .opcodeByte (hdr0Byte f r 7)
  | .opcode8 f r => .opcodeByte (hdr0Byte f r 8)
  | .opcode9 f r => .opcodeByte (hdr0Byte f r 9)
  | .opcodeA f r => .opcodeByte (hdr0Byte f r 10)
  | .opcodeB f r => .opcodeByte (hdr0Byte f r 11)
  | .opcodeC f r => .opcodeByte (hdr0Byte f r 12)
  | .opcodeD f r => .opcodeByte (hdr0Byte f r 13)
  | .opcodeE f r => .opcodeByte (hdr0Byte f r 14)
  | .opcodeF f r => .opcodeByte (hdr0Byte f r 15)

/-! ### Words numbered as the table numbers them -/

/-- An 8-bit word whose format is not said. The table gives rows of four formats the same 8 bits, so
the reading is a choice (log entry 5): the row with the most fixed bits, and among host tokens the
decoder's. Operands that the table gives no bits are empty or zero. -/
def byteWord (b : Byte) : PortWord :=
  if b.toNat < 4 then .decToken (b.setWidth 2) []
  else if bits6to0 b = 126 then .hdr1 b (List.replicate 2 0)
  else if bits6to0 b = 127 then .hdr1 b (List.replicate 8 0)
  else .opcodeByte b

/-- The word of `nbits` bits with the number `w`: one byte, or an 11-bit selector in two bytes. -/
def tableWord (nbits w : Nat) : Option PortWord :=
  if nbits ≤ 8 then (if w < 2 ^ 8 then some (byteWord (BitVec.ofNat 8 w)) else none)
  else if nbits ≤ 16 then (if w < 2 ^ 11 then some (.uop (BitVec.ofNat 11 w)) else none)
  else none

/-- The instruction the decoder reads from a word numbered as spec/opcode_table.json numbers it. -/
def decodeTableWord (nbits w : Nat) : Option Instr :=
  match tableWord nbits w with
  | none => none
  | some p =>
    match decode p with
    | .ok i => some i
    | .error _ => none

end Sys2Proof
end

