-- ==== Sys2Proof/Machine/State.lean ====
section
/-! DEFINITION. Everything the machine holds: the decoder's registers (spec/10_state.md R20), the
encoder's (R33), the two output streams (R34), and the model's own fields for what lies at the ports:
the parameters, the tokens not yet delivered and the statuses returned. Plain data throughout. -/

namespace Sys2Proof.Machine

/-- The values of the 3-bit register `dstate` (R22, R86). The last two are reserved: no rule writes
them, and a decoder that holds one is stuck (R90, log entry 8). -/
inductive Tag where
  | awaitFlags
  | awaitLen
  | awaitExtLen
  | awaitKey
  | awaitBody
  | awaitMaskedBody
  | reserved6
  | reserved7
  deriving DecidableEq, Repr

/-- The two body kinds of a Frame record (R83). -/
inductive Kind where
  | text
  | binary
  deriving DecidableEq, Repr

/-- The decoder's Frame record (R83, R116). -/
structure Frame where
  fin : Bool
  opcode : BitVec 4
  mask : Bool
  kind : Kind
  body : Bytes
  deriving DecidableEq, Repr

/-- Elements of the decoder's output stream DOUT: `Frame | End` (R83). -/
inductive DecEvent where
  | frame (r : Frame)
  | sentinel
  deriving DecidableEq, Repr

/-- Elements of the encoder's output stream EOUT: `Chunk(bytes) | End` (R84). -/
inductive EncEvent where
  | chunk (bs : Bytes)
  | sentinel
  deriving DecidableEq, Repr

/-- The status an operation returns (R35, R85). -/
inductive Status where
  | ok
  | invalidInput
  | unsupported
  | afterEnd
  | capacityExceeded
  deriving DecidableEq, Repr

/-- The diagnostic that comes with an error status (R170's column "info recorded", I19). -/
inductive Info where
  | nothing
  | token
  | body
  | opcode
  | bodyLength (n : Nat)
  deriving DecidableEq, Repr

/-- Which unit returned a status (R3). -/
inductive Port where
  | dec
  | enc
  deriving DecidableEq, Repr

/-- One response: the status of one operation of one unit, with its diagnostic (R35). -/
structure Response where
  port : Port
  status : Status
  info : Info
  deriving DecidableEq, Repr

/-- What the host has still to deliver: a word of the table, or one wire byte (`dec.byte`, R92), whose
selector word is formed from `dstate` when it is taken (R95). -/
inductive Input where
  | word (p : PortWord)
  | byte (b : Byte)
  deriving DecidableEq, Repr

/-- The decoder's registers (R20) and its output stream DOUT (R34). -/
structure Dec where
  /-- selects the micro-operation of the next byte (R22) -/
  dstate : Tag
  /-- shift amount, key index or body index (R23) -/
  cursor : BitVec 32
  /-- accumulated FIN bit (R24) -/
  fin : Bool
  /-- accumulated opcode (R25) -/
  opcode : BitVec 4
  /-- accumulated MASK bit (R26) -/
  mask : Bool
  /-- accumulated payload length (R27) -/
  length : BitVec 64
  /-- the mask key buffer KEY[0..3] (R28) -/
  key : Key
  /-- the body buffer BODY, as long as it is allocated (R29) -/
  body : Bytes
  /-- End has been received (R30) -/
  ended : Bool
  /-- a body-capacity fault has happened (R32) -/
  dfault : Bool
  /-- DOUT, oldest first (R34) -/
  dout : List DecEvent
  deriving DecidableEq, Repr

/-- The encoder's register (R33) and its output stream EOUT (R34). -/
structure Enc where
  /-- End has been received (R33) -/
  eended : Bool
  /-- EOUT, oldest first (R34) -/
  eout : List EncEvent
  deriving DecidableEq, Repr

/-- The machine: one decoder, one encoder, and the model's own fields for its ports. -/
structure State where
  dec : Dec
  enc : Enc
  /-- the parameters of R6, which no instruction changes (log entry 1) -/
  params : Params
  /-- the tokens the host has still to deliver, next first (log entry 2) -/
  input : List Input
  /-- the statuses returned so far, oldest first: the block stores none (R35, log entry 3) -/
  responses : List Response
  deriving DecidableEq, Repr

/-- The reasons the machine stops. -/
inductive Fault where
  /-- The decoder holds a reserved `dstate` value, or a reserved selector word is run (R90, R104).
  Raised by every decoder operation but construction, and by the two reserved rows. Safe. -/
  | reservedTag
  /-- A selector word is run whose dstate field is not the decoder's: no byte forms it (R93, R104).
  Raised by the micro-operation rows only. Safe: it never arises from `Input.byte`. -/
  | notSelected
  /-- A KEY or BODY index outside the array (R14, R51). Raised by UOP_KEY, UOP_BODY, UOP_MASKED_BODY
  and by a Feed that reaches them, in states no run reaches. Safe. -/
  | indexOutOfRange
  deriving DecidableEq, Repr

/-- The reasons the machine has no meaning for what it is given. -/
inductive Refusal where
  /-- The instruction has no meaning yet. Raised by `exec`'s arms only. Safe. -/
  | notModelled (mnemonic : String)
  /-- The encoder token kind 10: the spec says that no token has it (R95). Raised by
  ENC_KIND_RESERVED. Safe. -/
  | noSuchToken
  /-- The word at the port decodes to no instruction. Raised by `step` only. Safe. -/
  | badWord (e : DecodeError)
  deriving DecidableEq, Repr

/-- The decoder after construction (R200, R31). -/
def Dec.reset : Dec where
  dstate := .awaitFlags
  cursor := 0
  fin := false
  opcode := 0
  mask := false
  length := 0
  key := ⟨0, 0, 0, 0⟩
  body := []
  ended := false
  dfault := false
  dout := []

/-- The encoder after construction (R201). -/
def Enc.reset : Enc where
  eended := false
  eout := []

/-- Both units just constructed, with the default parameters (R6, R200, R201, R204), nothing
delivered and no status returned. -/
def State.reset : State where
  dec := Dec.reset
  enc := Enc.reset
  params := Params.standard
  input := []
  responses := []

end Sys2Proof.Machine
end

