-- ==== Sys2Proof/Machine/Flags.lean ====
section
/-! DEFINITION. The one-bit state (spec/10_state.md R38): the frame flags taken from the header bytes,
the end-of-stream flags and the capacity-fault flag, and the body kind that the opcode decides. -/

namespace Sys2Proof.Machine

/-- `fin <- b[7]; opcode <- b[3:0]`; RSV is ignored (R24, R25, R87, R107). -/
def Dec.takeHdr0 (d : Dec) (b : Byte) : Dec := { d with fin := bit7 b, opcode := bits3to0 b }

/-- `mask <- m`, the MASK bit of header byte 1 (R26). -/
def Dec.takeMask (d : Dec) (m : Bool) : Dec := { d with mask := m }

/-- `ended <- 1` (R30, R103). -/
def Dec.setEnded (d : Dec) : Dec := { d with ended := true }

/-- `dfault <- 1` (R32, R106). -/
def Dec.setFault (d : Dec) : Dec := { d with dfault := true }

/-- `eended <- 1` (R33, R141). -/
def Enc.setEnded (e : Enc) : Enc := { e with eended := true }

/-- The body kind: Text exactly when opcode = 1 (R25, R83, R116). -/
def kindOf (o : BitVec 4) : Kind := if o = 1 then .text else .binary

end Sys2Proof.Machine
end

