-- ==== Sys2Proof/Machine/Ops.lean ====
section
/-! DEFINITION. The named operations that the meanings share: codes (spec/30_encoding.md R85, R86),
access to KEY and BODY (R14), the session reset (R31), emission (R115), allocation (R106), the
transition out of the length phase (R105), and how an operation of either unit checks its sticky
flags, returns its status and raises an error (R15, R100, R140, R174, R178). -/

namespace Sys2Proof

/-! ### KEY -/

/-- `KEY[i mod 4]` (R28, R54). -/
def Key.cyclic (k : Key) (i : Nat) : Byte :=
  match i % 4 with
  | 0 => k.k0
  | 1 => k.k1
  | 2 => k.k2
  | _ => k.k3

/-- `KEY[i] <- b`, for i in 0 to 3 (R14). -/
def Key.put (k : Key) (i : Nat) (b : Byte) : Option Key :=
  match i with
  | 0 => some { k with k0 := b }
  | 1 => some { k with k1 := b }
  | 2 => some { k with k2 := b }
  | 3 => some { k with k3 := b }
  | _ => none

/-- The key bytes in wire order (R54, R75). -/
def Key.bytes (k : Key) : Bytes := [k.k0, k.k1, k.k2, k.k3]

end Sys2Proof

namespace Sys2Proof.Machine

/-! ### Codes -/

/-- The encoding of the state tags (R86). -/
def Tag.code : Tag → BitVec 3
  | .awaitFlags => 0
  | .awaitLen => 1
  | .awaitExtLen => 2
  | .awaitKey => 3
  | .awaitBody => 4
  | .awaitMaskedBody => 5
  | .reserved6 => 6
  | .reserved7 => 7

/-- The tag with a given encoding (R86, R90). -/
def Tag.ofCode (c : BitVec 3) : Tag :=
  match c.toNat with
  | 0 => .awaitFlags
  | 1 => .awaitLen
  | 2 => .awaitExtLen
  | 3 => .awaitKey
  | 4 => .awaitBody
  | 5 => .awaitMaskedBody
  | 6 => .reserved6
  | _ => .reserved7

/-- The tags no rule writes (R90). -/
def Tag.isReserved : Tag → Bool
  | .awaitFlags => false
  | .awaitLen => false
  | .awaitExtLen => false
  | .awaitKey => false
  | .awaitBody => false
  | .awaitMaskedBody => false
  | .reserved6 => true
  | .reserved7 => true

/-- The numeric status codes (R85). -/
def Status.code : Status → Nat
  | .ok => 0
  | .invalidInput => 1
  | .unsupported => 2
  | .afterEnd => 3
  | .capacityExceeded => 4

/-- The selector word of a byte: `w = dstate<<8 | b` (R95). -/
def selector (t : Tag) (b : Byte) : BitVec 11 := selectorWord t.code b

/-! ### BODY -/

/-- `BODY[i] <- b`, for i in 0 to len(BODY) − 1 (R14). -/
def putBody (body : Bytes) (i : Nat) (b : Byte) : Option Bytes :=
  if i < body.length then some (body.set i b) else none

/-! ### Session reset and emission -/

/-- `ResetSession()`: the eight session registers at their initial values (R21, R31). -/
def Dec.sessionReset (d : Dec) : Dec :=
  { d with
    dstate := .awaitFlags, cursor := 0, fin := false, opcode := 0, mask := false, length := 0,
    key := ⟨0, 0, 0, 0⟩, body := [] }

/-- `emit_D(ev)` (R15, R34). -/
def Dec.push (d : Dec) (ev : DecEvent) : Dec := { d with dout := d.dout ++ [ev] }

/-- `emit_E(ev)` for each event in order (R15, R34). -/
def Enc.push (e : Enc) (evs : List EncEvent) : Enc := { e with eout := e.eout ++ evs }

/-- The Frame record built from the session registers (R115, R116). -/
def Dec.record (d : Dec) : Frame where
  fin := d.fin
  opcode := d.opcode
  mask := d.mask
  kind := kindOf d.opcode
  body := d.body

/-- `Emit()`: the record is built, the session is reset, then the record is appended (R115). -/
def Dec.emit (d : Dec) : Dec := d.sessionReset.push (.frame d.record)

/-! ### Micro-steps -/

/-- How a micro-step ends: it completes; it raises an error that keeps what it has written (R175 is
the one such rule, and an error that writes nothing carries the state it was given); or the decoder
is stuck. -/
inductive Micro where
  | done (d : Dec)
  | raised (d : Dec) (st : Status) (info : Info)
  | stopped (r : Fault)
  deriving DecidableEq, Repr

/-- `Allocate(length)` (R106): BODY becomes `zeros(n)`, unless n exceeds `BODY_CAPACITY`. -/
def Dec.allocate (cap : Nat) (d : Dec) : Micro :=
  if d.length.toNat > cap then
    .raised d.setFault .capacityExceeded (.bodyLength d.length.toNat)
  else .done { d with body := List.replicate d.length.toNat 0 }

/-- What follows the allocation in R105: the cursor, the next phase, and emission at once when the
frame is unmasked and empty. -/
def Dec.openPayload (d : Dec) : Dec :=
  if d.mask then { d with cursor := 0, dstate := .awaitKey }
  else if d.length = 0 then { d with cursor := 0, dstate := .awaitBody }.emit
  else { d with cursor := 0, dstate := .awaitBody }

/-- `EnterPayload()`, the transition out of the length phase (R105). -/
def Dec.enterPayload (cap : Nat) (d : Dec) : Micro :=
  match d.allocate cap with
  | .done d' => .done d'.openPayload
  | .raised d' st info => .raised d' st info
  | .stopped r => .stopped r

/-! ### Operations of the units: sticky flags, statuses, errors -/

/-- The status of an operation goes back to the host (R35). -/
def State.respond (s : State) (p : Port) (st : Status) (info : Info) : State :=
  { s with responses := s.responses ++ [⟨p, st, info⟩] }

/-- The decoder's registers replaced. -/
def State.setDec (s : State) (d : Dec) : State := { s with dec := d }

/-- The encoder's register and stream replaced. -/
def State.setEnc (s : State) (e : Enc) : State := { s with enc := e }

/-- Taking an error, the block's only exception (R174, R178): nothing is saved and no mode changes;
the status returns to the host, and the unit is as it was before the token. There is no return from
an error (R179): the next token is processed as it comes. -/
def State.raise (s : State) (p : Port) (st : Status) (info : Info) :
    Host.Outcome State Fault Refusal :=
  .next (s.respond p st info)

/-- One decoder operation (R100): a reserved tag is stuck (R90); the sticky flags are checked, dfault
before ended (R176); then the operation runs, and its status returns. -/
def State.decOp (s : State) (op : Dec → Micro) : Host.Outcome State Fault Refusal :=
  if s.dec.dstate.isReserved then .fault .reservedTag
  else if s.dec.dfault then s.raise .dec .capacityExceeded .nothing
  else if s.dec.ended then s.raise .dec .afterEnd .nothing
  else
    match op s.dec with
    | .done d => .next ((s.setDec d).respond .dec .ok .nothing)
    | .raised d st info => (s.setDec d).raise .dec st info
    | .stopped r => .fault r

/-- One encoder operation (R140): the sticky flag is checked, then the operation runs; an error
leaves the unit as it was (R174). -/
def State.encOp (s : State) (op : Enc → Except (Status × Info) Enc) :
    Host.Outcome State Fault Refusal :=
  if s.enc.eended then s.raise .enc .afterEnd .nothing
  else
    match op s.enc with
    | .ok e => .next ((s.setEnc e).respond .enc .ok .nothing)
    | .error (st, info) => s.raise .enc st info

end Sys2Proof.Machine
end

