-- ==== Sys2Proof/Machine/Operands.lean ====
section
/-! DEFINITION. The operand forms: the resolution of every field of the encoder's record
(spec/41_encoder.md R143 to R147), the header that is serialized from it (R148), cyclic masking
(R54, R76), the wire form of a frame (R92), and the text conversions outside the block (R11). -/

namespace Sys2Proof.Machine

/-! ### Fields of the record -/

/-- Payload resolution (R143): the body bytes and `isText`. -/
def resolveBody : BodyIn → Except (Status × Info) (Bytes × Bool)
  | .text bs => .ok (bs, true)
  | .binary bs => .ok (bs, false)
  | .invalid => .error (.invalidInput, .body)

/-- The FIN default (R144). -/
def resolveFin : Option Bool → Bool
  | none => true
  | some v => v

/-- The opcode default and its reduction `n mod 16`, Euclidean (R145, R18). -/
def resolveOpcode (isText : Bool) : OpcodeIn → Except (Status × Info) (BitVec 4)
  | .absent => .ok (if isText then 1 else 2)
  | .num n => .ok (BitVec.ofNat 4 (n % 16).toNat)
  | .nonNumeric => .error (.invalidInput, .opcode)

/-- The mask request (R146). -/
def resolveMask : Option Bool → Bool
  | none => false
  | some v => v

/-- The key of a masked frame (R146, R147): none when no mask is asked for; refused when the option is
off or no key is given. -/
def resolveKey (supported : Bool) (maskb : Bool) (key : Option Key) :
    Except (Status × Info) (Option Key) :=
  if maskb then
    if supported then
      match key with
      | some k => .ok (some k)
      | none => .error (.unsupported, .nothing)
    else .error (.unsupported, .nothing)
  else .ok none

/-! ### Serialization -/

/-- The length field of header byte 1 (R80, R148). -/
def lenField (L : Nat) : BitVec 7 :=
  if L < 126 then BitVec.ofNat 7 L else if L < 65536 then 126 else 127

/-- The extended-length bytes (R80, R148). -/
def lenExt (L : Nat) : Bytes :=
  if L < 126 then [] else if L < 65536 then be2 L else be8 L

/-- Header serialization (R148): RSV is always 0. -/
def header (finb : Bool) (op : BitVec 4) (maskb : Bool) (L : Nat) : Bytes :=
  [hdr0Byte finb 0 op, hdr1Byte maskb (lenField L)] ++ lenExt L

/-- `bytes[i] ^ k[(start + i) mod 4]` for each i (R54, R76). -/
def maskFrom (k : Key) : Nat → Bytes → Bytes
  | _, [] => []
  | start, b :: bs => (b ^^^ k.cyclic start) :: maskFrom k (start + 1) bs

/-- The payload as it goes on the wire: masked when there is a key (R76, R147). -/
def wirePayload (key : Option Key) (bytes : Bytes) : Bytes :=
  match key with
  | some k => maskFrom k 0 bytes
  | none => bytes

/-- The key field on the wire: present exactly when the frame is masked (R75). -/
def wireKey (key : Option Key) : Bytes :=
  match key with
  | some k => k.bytes
  | none => []

/-- The output chunks of one frame: the header with its key, then the payload when it is not empty
(R147, R149). -/
def frameChunks (finb : Bool) (op : BitVec 4) (key : Option Key) (bytes : Bytes) : List EncEvent :=
  .chunk (header finb op key.isSome bytes.length ++ wireKey key) ::
    (if bytes.length > 0 then [.chunk (wirePayload key bytes)] else [])

/-- ENC_FRAME's steps in their order (R142): payload, opcode, mask, then the chunks. -/
def encodeFrame (supported : Bool) (f : FrameIn) : Except (Status × Info) (List EncEvent) :=
  match resolveBody f.body with
  | .error e => .error e
  | .ok (bytes, isText) =>
    match resolveOpcode isText f.opcode with
    | .error e => .error e
    | .ok op =>
      match resolveKey supported (resolveMask f.mask) f.key with
      | .error e => .error e
      | .ok key => .ok (frameChunks (resolveFin f.fin) op key bytes)

/-- `wire{fin opcode mask key payload}` (R92): one frame on the wire in its minimal form. -/
def wireFrame (finb : Bool) (op : BitVec 4) (key : Option Key) (payload : Bytes) : Bytes :=
  header finb op key.isSome payload.length ++ wireKey key ++ wirePayload key payload

/-! ### Text, outside the block (R11) -/

/-- The body a host presents for a text value: its bytes under `textEncode`, tagged Text (R11, R82). -/
def textBody (str : String) : BodyIn := .text (Config.textEncode str)

/-- What a consumer makes of a record's body: the text of a Text body under `textDecode`, which may
fail, and the bytes of a Binary one (R11, R116, R213). -/
def Frame.asText (r : Frame) : Option String :=
  match r.kind with
  | .text => Config.textDecode r.body
  | .binary => none

end Sys2Proof.Machine
end

