-- ==== Sys2Proof/Machine/EncoderTokens.lean ====
section
/-! DEFINITION. The encoder's host operations (spec/41_encoder.md R141, R142), the token kind that no
token has (R95), and its construction (spec/70_reset_and_hazards.md R201). -/

namespace Sys2Proof.Machine

/-- ENC_FRAME (R142 to R149). -/
def execEncFrame (f : FrameIn) (s : State) : Host.Outcome State Fault Refusal :=
  s.encOp fun e =>
    match encodeFrame s.params.encMaskSupported f with
    | .ok evs => .ok (e.push evs)
    | .error r => .error r

/-- ENC_END (R141): the sentinel is forwarded, then eended is set. -/
def execEncEnd (s : State) : Host.Outcome State Fault Refusal :=
  s.encOp fun e => .ok (e.push [.sentinel]).setEnded

/-- ENC_KIND_RESERVED (R95): "unused: no such token". -/
def execEncKindReserved (_s : State) : Host.Outcome State Fault Refusal := .refused .noSuchToken

/-- ENC_RESET (R201): construction. It is no token and returns no status (log entry 3). -/
def execEncReset (s : State) : Host.Outcome State Fault Refusal := .next (s.setEnc Enc.reset)

end Sys2Proof.Machine
end

