-- ==== Sys2Proof/Machine/DecoderUops.lean ====
section
/-! DEFINITION. The byte machine (spec/40_decoder.md R104 to R114): the eight micro-operations, the
dispatch of one byte, the fold over a chunk, and the meanings of the micro-operation rows. A
micro-operation row runs as the one-byte Feed `dec.byte` does (R92, log entry 6). -/

namespace Sys2Proof.Machine

/-! ### The micro-operations -/

/-- FLAGS (R107). -/
def uFlags (b : Byte) (d : Dec) : Micro := .done { d.takeHdr0 b with dstate := .awaitLen }

/-- LEN_SHORT (R108). -/
def uLenShort (cap : Nat) (m : Bool) (l : BitVec 7) (d : Dec) : Micro :=
  { d.takeMask m with length := l.setWidth 64 }.enterPayload cap

/-- LEN_EXT16 (R109). -/
def uLenExt16 (m : Bool) (d : Dec) : Micro :=
  .done { d.takeMask m with length := 0, cursor := 8, dstate := .awaitExtLen }

/-- LEN_EXT64 (R110). -/
def uLenExt64 (m : Bool) (d : Dec) : Micro :=
  .done { d.takeMask m with length := 0, cursor := 56, dstate := .awaitExtLen }

/-- The length with one more byte ORed in at the shift that the cursor holds (R111). -/
def orLength (d : Dec) (b : Byte) : BitVec 64 := d.length ||| (b.setWidth 64 <<< d.cursor.toNat)

/-- TRUNC32: `length mod 2^32` (R8, R111). -/
def trunc32 (v : BitVec 64) : BitVec 64 := (v.setWidth 32).setWidth 64

/-- EXT_LEN (R111): the byte taken at shift 0 is the last. -/
def uExtLen (cap : Nat) (b : Byte) (d : Dec) : Micro :=
  if d.cursor = 0 then { d with length := trunc32 (orLength d b) }.enterPayload cap
  else .done { d with length := orLength d b, cursor := d.cursor - 8 }

/-- The end of AWAIT_KEY (R112): the allocation repeated, then emission or the masked body. -/
def Dec.closeKey (cap : Nat) (d : Dec) : Micro :=
  match { d with cursor := 0 }.allocate cap with
  | .done d' => .done (if d'.length = 0 then d'.emit else { d' with dstate := .awaitMaskedBody })
  | .raised d' st info => .raised d' st info
  | .stopped r => .stopped r

/-- KEY_BYTE (R112). -/
def uKey (cap : Nat) (b : Byte) (d : Dec) : Micro :=
  match d.key.put d.cursor.toNat b with
  | none => .stopped .indexOutOfRange
  | some k =>
    if d.cursor + 1 = 4 then { d with key := k, cursor := d.cursor + 1 }.closeKey cap
    else .done { d with key := k, cursor := d.cursor + 1 }

/-- The store of one payload byte at the cursor, the increment, and emission when the cursor has
reached the length (R113, R114). -/
def Dec.storeBody (d : Dec) (b : Byte) : Micro :=
  match putBody d.body d.cursor.toNat b with
  | none => .stopped .indexOutOfRange
  | some body' =>
    if (d.cursor + 1).toNat = d.length.toNat then
      .done { d with body := body', cursor := d.cursor + 1 }.emit
    else .done { d with body := body', cursor := d.cursor + 1 }

/-- BODY_BYTE (R113). -/
def uBody (b : Byte) (d : Dec) : Micro := d.storeBody b

/-- MASKED_BODY_BYTE (R114). -/
def uMaskedBody (b : Byte) (d : Dec) : Micro := d.storeBody (b ^^^ d.key.cyclic d.cursor.toNat)

/-- A byte in AWAIT_LEN, by its bits 6 to 0 (R93, R104). -/
def uLen (cap : Nat) (b : Byte) (d : Dec) : Micro :=
  if (bits6to0 b).toNat ≤ 125 then uLenShort cap (bit7 b) (bits6to0 b) d
  else if bits6to0 b = 126 then uLenExt16 (bit7 b) d
  else uLenExt64 (bit7 b) d

/-- `ByteStep(b)` (R104): one byte runs the one micro-operation that dstate selects. -/
def byteStep (cap : Nat) (b : Byte) (d : Dec) : Micro :=
  match d.dstate with
  | .awaitFlags => uFlags b d
  | .awaitLen => uLen cap b d
  | .awaitExtLen => uExtLen cap b d
  | .awaitKey => uKey cap b d
  | .awaitBody => uBody b d
  | .awaitMaskedBody => uMaskedBody b d
  | .reserved6 => .stopped .reservedTag
  | .reserved7 => .stopped .reservedTag

/-- The bytes of a chunk, left to right, up to the first that does not complete (R102, R175). -/
def feedBytes (cap : Nat) : Bytes → Dec → Micro
  | [], d => .done d
  | b :: bs, d =>
    match byteStep cap b d with
    | .done d' => feedBytes cap bs d'
    | .raised d' st info => .raised d' st info
    | .stopped r => .stopped r

/-- A micro-operation named by its selector word runs only in the state that selects it (R93). -/
def whenSelected (t : Tag) (op : Dec → Micro) (d : Dec) : Micro :=
  if d.dstate = t then op d else .stopped .notSelected

/-! ### The meanings of the rows -/

/-- UOP_FLAGS (R107). -/
def execUopFlags (b : Byte) (s : State) : Host.Outcome State Fault Refusal :=
  s.decOp (whenSelected .awaitFlags (uFlags b))

/-- UOP_LEN_SHORT (R108). -/
def execUopLenShort (m : Bool) (l : BitVec 7) (s : State) : Host.Outcome State Fault Refusal :=
  s.decOp (whenSelected .awaitLen (uLenShort s.params.bodyCapacity m l))

/-- UOP_LEN_EXT16 (R109). -/
def execUopLenExt16 (m : Bool) (s : State) : Host.Outcome State Fault Refusal :=
  s.decOp (whenSelected .awaitLen (uLenExt16 m))

/-- UOP_LEN_EXT64 (R110). -/
def execUopLenExt64 (m : Bool) (s : State) : Host.Outcome State Fault Refusal :=
  s.decOp (whenSelected .awaitLen (uLenExt64 m))

/-- UOP_EXT_LEN (R111). -/
def execUopExtLen (b : Byte) (s : State) : Host.Outcome State Fault Refusal :=
  s.decOp (whenSelected .awaitExtLen (uExtLen s.params.bodyCapacity b))

/-- UOP_KEY (R112). -/
def execUopKey (b : Byte) (s : State) : Host.Outcome State Fault Refusal :=
  s.decOp (whenSelected .awaitKey (uKey s.params.bodyCapacity b))

/-- UOP_BODY (R113). -/
def execUopBody (b : Byte) (s : State) : Host.Outcome State Fault Refusal :=
  s.decOp (whenSelected .awaitBody (uBody b))

/-- UOP_MASKED_BODY (R114). -/
def execUopMaskedBody (b : Byte) (s : State) : Host.Outcome State Fault Refusal :=
  s.decOp (whenSelected .awaitMaskedBody (uMaskedBody b))

/-- UOP_RESERVED_6 (R90): stuck, with no step and no meaning. -/
def execUopReserved6 (_b : Byte) (_s : State) : Host.Outcome State Fault Refusal :=
  .fault .reservedTag

/-- UOP_RESERVED_7 (R90): stuck, with no step and no meaning. -/
def execUopReserved7 (_b : Byte) (_s : State) : Host.Outcome State Fault Refusal :=
  .fault .reservedTag

end Sys2Proof.Machine
end

