-- ==== Sys2Proof/Machine/DecoderTokens.lean ====
section
/-! DEFINITION. The decoder's host operations (spec/40_decoder.md R101 to R103) and its construction
(spec/70_reset_and_hazards.md R200). -/

namespace Sys2Proof.Machine

/-- Feed(chunk) on the decoder's registers, shared by DEC_FEED and the wire rows (R102). -/
def State.feed (s : State) (chunk : Bytes) : Host.Outcome State Fault Refusal :=
  s.decOp (feedBytes s.params.bodyCapacity chunk)

/-- DEC_FEED (R102). -/
def execDecFeed (chunk : Bytes) (s : State) : Host.Outcome State Fault Refusal := s.feed chunk

/-- DEC_END (R103): the sentinel is forwarded, then ended is set; the session registers stay. -/
def execDecEnd (s : State) : Host.Outcome State Fault Refusal :=
  s.decOp fun d => .done (d.push .sentinel).setEnded

/-- DEC_INVALID (R101): always InvalidInput, nothing written. -/
def execDecInvalid (s : State) : Host.Outcome State Fault Refusal :=
  s.decOp fun d => .raised d .invalidInput .token

/-- DEC_RESET (R200): construction. It is no token and returns no status (log entry 3). -/
def execDecReset (s : State) : Host.Outcome State Fault Refusal := .next (s.setDec Dec.reset)

end Sys2Proof.Machine
end

