-- ==== Sys2Proof/Machine/Wire.lean ====
section
/-! DEFINITION. The wire rows (spec/30_encoding.md R71 to R74, R78): header bytes on their way into the
decoder. Their meaning is the Feed of their bytes in one chunk, so that the decoder takes header byte
0 as R107 says when it awaits one (log entry 7). -/

namespace Sys2Proof.Machine

/-- WIRE_HDR0 (R71). -/
def execWireHdr0 (f : Bool) (r : BitVec 3) (o : BitVec 4) (s : State) :
    Host.Outcome State Fault Refusal :=
  s.feed [hdr0Byte f r o]

/-- WIRE_HDR1_SHORT (R72). -/
def execWireHdr1Short (m : Bool) (l : BitVec 7) (s : State) : Host.Outcome State Fault Refusal :=
  s.feed [hdr1Byte m l]

/-- WIRE_HDR1_EXT16 (R73): header byte 1 and the two length bytes, big-endian. -/
def execWireHdr1Ext16 (m : Bool) (len : BitVec 16) (s : State) :
    Host.Outcome State Fault Refusal :=
  s.feed (hdr1Byte m 126 :: be2 len.toNat)

/-- WIRE_HDR1_EXT64 (R74): header byte 1 and the eight length bytes, big-endian. -/
def execWireHdr1Ext64 (m : Bool) (len : BitVec 64) (s : State) :
    Host.Outcome State Fault Refusal :=
  s.feed (hdr1Byte m 127 :: be8 len.toNat)

/-- OPCODE_0 (R78): header byte 0 with opcode 0. -/
def execOpcode0 (f : Bool) (r : BitVec 3) (s : State) : Host.Outcome State Fault Refusal :=
  s.feed [hdr0Byte f r 0]

/-- OPCODE_1 (R78): header byte 0 with opcode 1. -/
def execOpcode1 (f : Bool) (r : BitVec 3) (s : State) : Host.Outcome State Fault Refusal :=
  s.feed [hdr0Byte f r 1]

/-- OPCODE_2 (R78): header byte 0 with opcode 2. -/
def execOpcode2 (f : Bool) (r : BitVec 3) (s : State) : Host.Outcome State Fault Refusal :=
  s.feed [hdr0Byte f r 2]

/-- OPCODE_3 (R78): header byte 0 with opcode 3. -/
def execOpcode3 (f : Bool) (r : BitVec 3) (s : State) : Host.Outcome State Fault Refusal :=
  s.feed [hdr0Byte f r 3]

/-- OPCODE_4 (R78): header byte 0 with opcode 4. -/
def execOpcode4 (f : Bool) (r : BitVec 3) (s : State) : Host.Outcome State Fault Refusal :=
  s.feed [hdr0Byte f r 4]

/-- OPCODE_5 (R78): header byte 0 with opcode 5. -/
def execOpcode5 (f : Bool) (r : BitVec 3) (s : State) : Host.Outcome State Fault Refusal :=
  s.feed [hdr0Byte f r 5]

/-- OPCODE_6 (R78): header byte 0 with opcode 6. -/
def execOpcode6 (f : Bool) (r : BitVec 3) (s : State) : Host.Outcome State Fault Refusal :=
  s.feed [hdr0Byte f r 6]

/-- OPCODE_7 (R78): header byte 0 with opcode 7. -/
def execOpcode7 (f : Bool) (r : BitVec 3) (s : State) : Host.Outcome State Fault Refusal :=
  s.feed [hdr0Byte f r 7]

/-- OPCODE_8 (R78): header byte 0 with opcode 8. -/
def execOpcode8 (f : Bool) (r : BitVec 3) (s : State) : Host.Outcome State Fault Refusal :=
  s.feed [hdr0Byte f r 8]

/-- OPCODE_9 (R78): header byte 0 with opcode 9. -/
def execOpcode9 (f : Bool) (r : BitVec 3) (s : State) : Host.Outcome State Fault Refusal :=
  s.feed [hdr0Byte f r 9]

/-- OPCODE_A (R78): header byte 0 with opcode 10. -/
def execOpcodeA (f : Bool) (r : BitVec 3) (s : State) : Host.Outcome State Fault Refusal :=
  s.feed [hdr0Byte f r 10]

/-- OPCODE_B (R78): header byte 0 with opcode 11. -/
def execOpcodeB (f : Bool) (r : BitVec 3) (s : State) : Host.Outcome State Fault Refusal :=
  s.feed [hdr0Byte f r 11]

/-- OPCODE_C (R78): header byte 0 with opcode 12. -/
def execOpcodeC (f : Bool) (r : BitVec 3) (s : State) : Host.Outcome State Fault Refusal :=
  s.feed [hdr0Byte f r 12]

/-- OPCODE_D (R78): header byte 0 with opcode 13. -/
def execOpcodeD (f : Bool) (r : BitVec 3) (s : State) : Host.Outcome State Fault Refusal :=
  s.feed [hdr0Byte f r 13]

/-- OPCODE_E (R78): header byte 0 with opcode 14. -/
def execOpcodeE (f : Bool) (r : BitVec 3) (s : State) : Host.Outcome State Fault Refusal :=
  s.feed [hdr0Byte f r 14]

/-- OPCODE_F (R78): header byte 0 with opcode 15. -/
def execOpcodeF (f : Bool) (r : BitVec 3) (s : State) : Host.Outcome State Fault Refusal :=
  s.feed [hdr0Byte f r 15]

end Sys2Proof.Machine
end

