-- ==== Sys2Proof/Machine/Dispatch.lean ====
section
/-! DEFINITION. One arm for each constructor of `Instr`. -/

namespace Sys2Proof.Machine

def exec (i : Instr) (s : State) : Host.Outcome State Fault Refusal :=
  match i with
  | .decFeed chunk => Sys2Proof.Machine.execDecFeed chunk s
  | .decEnd => Sys2Proof.Machine.execDecEnd s
  | .decInvalid => Sys2Proof.Machine.execDecInvalid s
  | .decReset => Sys2Proof.Machine.execDecReset s
  | .encFrame f => Sys2Proof.Machine.execEncFrame f s
  | .encEnd => Sys2Proof.Machine.execEncEnd s
  | .encKindReserved => Sys2Proof.Machine.execEncKindReserved s
  | .encReset => Sys2Proof.Machine.execEncReset s
  | .uopFlags b => Sys2Proof.Machine.execUopFlags b s
  | .uopLenShort m l => Sys2Proof.Machine.execUopLenShort m l s
  | .uopLenExt16 m => Sys2Proof.Machine.execUopLenExt16 m s
  | .uopLenExt64 m => Sys2Proof.Machine.execUopLenExt64 m s
  | .uopExtLen b => Sys2Proof.Machine.execUopExtLen b s
  | .uopKey b => Sys2Proof.Machine.execUopKey b s
  | .uopBody b => Sys2Proof.Machine.execUopBody b s
  | .uopMaskedBody b => Sys2Proof.Machine.execUopMaskedBody b s
  | .uopReserved6 b => Sys2Proof.Machine.execUopReserved6 b s
  | .uopReserved7 b => Sys2Proof.Machine.execUopReserved7 b s
  | .wireHdr0 f r o => Sys2Proof.Machine.execWireHdr0 f r o s
  | .wireHdr1Short m l => Sys2Proof.Machine.execWireHdr1Short m l s
  | .wireHdr1Ext16 m len => Sys2Proof.Machine.execWireHdr1Ext16 m len s
  | .wireHdr1Ext64 m len => Sys2Proof.Machine.execWireHdr1Ext64 m len s
  | .opcode0 f r => Sys2Proof.Machine.execOpcode0 f r s
  | .opcode1 f r => Sys2Proof.Machine.execOpcode1 f r s
  | .opcode2 f r => Sys2Proof.Machine.execOpcode2 f r s
  | .opcode3 f r => Sys2Proof.Machine.execOpcode3 f r s
  | .opcode4 f r => Sys2Proof.Machine.execOpcode4 f r s
  | .opcode5 f r => Sys2Proof.Machine.execOpcode5 f r s
  | .opcode6 f r => Sys2Proof.Machine.execOpcode6 f r s
  | .opcode7 f r => Sys2Proof.Machine.execOpcode7 f r s
  | .opcode8 f r => Sys2Proof.Machine.execOpcode8 f r s
  | .opcode9 f r => Sys2Proof.Machine.execOpcode9 f r s
  | .opcodeA f r => Sys2Proof.Machine.execOpcodeA f r s
  | .opcodeB f r => Sys2Proof.Machine.execOpcodeB f r s
  | .opcodeC f r => Sys2Proof.Machine.execOpcodeC f r s
  | .opcodeD f r => Sys2Proof.Machine.execOpcodeD f r s
  | .opcodeE f r => Sys2Proof.Machine.execOpcodeE f r s
  | .opcodeF f r => Sys2Proof.Machine.execOpcodeF f r s

end Sys2Proof.Machine
end

