-- ==== Sys2Proof/Machine/Fetch.lean ====
section
/-! DEFINITION. Taking the next word from the host, and placing one for it. The block fetches no
instruction (spec/20_memory.md R65): its program is the input token stream. -/

namespace Sys2Proof.Machine

/-- The word at the head of the input: a token's own, or the selector that `dstate` and a wire byte
form (R95, R104). -/
def State.fetch (s : State) : Option PortWord :=
  match s.input with
  | [] => none
  | .word p :: _ => some p
  | .byte b :: _ => some (.uop (selector s.dec.dstate b))

/-- The input with its head taken: a token is delivered once, and completes before the next (R16). -/
def State.advance (s : State) : State := { s with input := s.input.tail }

/-- A decoder whose dstate is `t`, with the least in flight that R40 gives that state: two payload
bytes to come in the body states. A decoder already there is left as it is (log entry 4). -/
def Dec.parkedAt (t : Tag) (d : Dec) : Dec :=
  if d.dstate = t then d
  else
    match t with
    | .awaitFlags => d.sessionReset
    | .awaitLen => { d.sessionReset with dstate := .awaitLen }
    | .awaitExtLen => { d.sessionReset with dstate := .awaitExtLen, cursor := 8 }
    | .awaitKey => { d.sessionReset with dstate := .awaitKey, mask := true }
    | .awaitBody => { d.sessionReset with dstate := .awaitBody, length := 2, body := [0, 0] }
    | .awaitMaskedBody =>
      { d.sessionReset with dstate := .awaitMaskedBody, mask := true, length := 2, body := [0, 0] }
    | .reserved6 => { d with dstate := .reserved6 }
    | .reserved7 => { d with dstate := .reserved7 }

/-- A word placed at the head of the input; for a selector word its byte, and the decoder in the state
the word names, so that the next fetch forms that word (R95). -/
def State.place (s : State) (p : PortWord) : State :=
  match p with
  | .uop w =>
    { s with
      dec := s.dec.parkedAt (Tag.ofCode (selectorTag w))
      input := .byte (selectorByte w) :: s.input }
  | p => { s with input := .word p :: s.input }

end Sys2Proof.Machine
end

