-- ==== Sys2Proof/Machine/Step.lean ====
section
/-! DEFINITION. One step: the next token or wire byte is taken, decoded and run to completion
(spec/00_scope.md R16). With nothing to take, the units are idle and hold their state (R185). -/

namespace Sys2Proof.Machine

/-- One step of the machine. -/
def step (s : State) : Host.Outcome State Fault Refusal :=
  match s.fetch with
  | none => .next s
  | some p =>
    match decode p with
    | .error e => .refused (.badWord e)
    | .ok i => exec i s.advance

/-- The state with the table word of `nbits` bits and number `w` placed where `step` takes its next
one. A number that is no word of the table leaves the state as it is. -/
def State.withFetchWord (s : State) (nbits w : Nat) : State :=
  match tableWord nbits w with
  | none => s
  | some p => s.place p

end Sys2Proof.Machine
end

