-- ==== Sys2Proof/Safety.lean ====
section
/-! DEFINITION. The terms the statements use: a unit that takes tokens, the invariants of
spec/10_state.md R40 and spec/60_exceptions.md R173, which operations belong to which unit, a run of
several operations, and the frame parser of spec/40_decoder.md R119. -/

namespace Sys2Proof.Machine

/-! ### Units that take tokens -/

/-- The decoder takes a token: it is not stuck and no sticky flag is set (R90, R100). -/
def Dec.Ready (d : Dec) : Prop :=
  d.dstate.isReserved = false ∧ d.dfault = false ∧ d.ended = false

/-- The operations of the decoder: a host token, a micro-operation, or wire bytes, but not its
construction and not the reserved rows (R16, R81, R92). -/
def decoderOperation : Instr → Bool
  | .decFeed _ | .decEnd | .decInvalid => true
  | .uopFlags _ | .uopLenShort _ _ | .uopLenExt16 _ | .uopLenExt64 _ => true
  | .uopExtLen _ | .uopKey _ | .uopBody _ | .uopMaskedBody _ => true
  | .wireHdr0 _ _ _ | .wireHdr1Short _ _ | .wireHdr1Ext16 _ _ | .wireHdr1Ext64 _ _ => true
  | .opcode0 _ _ | .opcode1 _ _ | .opcode2 _ _ | .opcode3 _ _ => true
  | .opcode4 _ _ | .opcode5 _ _ | .opcode6 _ _ | .opcode7 _ _ => true
  | .opcode8 _ _ | .opcode9 _ _ | .opcodeA _ _ | .opcodeB _ _ => true
  | .opcodeC _ _ | .opcodeD _ _ | .opcodeE _ _ | .opcodeF _ _ => true
  | .decReset | .uopReserved6 _ | .uopReserved7 _ => false
  | .encFrame _ | .encEnd | .encKindReserved | .encReset => false

/-- The operations of the encoder: its two host tokens (R16, R82). -/
def encoderOperation : Instr → Bool
  | .encFrame _ | .encEnd => true
  | .encKindReserved | .encReset => false
  | .decFeed _ | .decEnd | .decInvalid | .decReset => false
  | .uopFlags _ | .uopLenShort _ _ | .uopLenExt16 _ | .uopLenExt64 _ => false
  | .uopExtLen _ | .uopKey _ | .uopBody _ | .uopMaskedBody _ => false
  | .uopReserved6 _ | .uopReserved7 _ => false
  | .wireHdr0 _ _ _ | .wireHdr1Short _ _ | .wireHdr1Ext16 _ _ | .wireHdr1Ext64 _ _ => false
  | .opcode0 _ _ | .opcode1 _ _ | .opcode2 _ _ | .opcode3 _ _ => false
  | .opcode4 _ _ | .opcode5 _ _ | .opcode6 _ _ | .opcode7 _ _ => false
  | .opcode8 _ _ | .opcode9 _ _ | .opcodeA _ _ | .opcodeB _ _ => false
  | .opcodeC _ _ | .opcodeD _ _ | .opcodeE _ _ | .opcodeF _ _ => false

/-- The micro-operation rows with the tag that selects them (R93). -/
def microOperationTag : Instr → Option Tag
  | .uopFlags _ => some .awaitFlags
  | .uopLenShort _ _ | .uopLenExt16 _ | .uopLenExt64 _ => some .awaitLen
  | .uopExtLen _ => some .awaitExtLen
  | .uopKey _ => some .awaitKey
  | .uopBody _ => some .awaitBody
  | .uopMaskedBody _ => some .awaitMaskedBody
  | _ => none

/-! ### Invariants -/

/-- The table of R40: what the registers hold in each state of the decoder, with the buffer bound of
R20 for the length that is allocated. -/
def Dec.PhaseInv (d : Dec) : Prop :=
  match d.dstate with
  | .awaitFlags =>
    d.cursor = 0 ∧ d.fin = false ∧ d.opcode = 0 ∧ d.mask = false ∧ d.length = 0 ∧ d.body = [] ∧
      d.key = ⟨0, 0, 0, 0⟩
  | .awaitLen =>
    d.cursor = 0 ∧ d.mask = false ∧ d.length = 0 ∧ d.body = [] ∧ d.key = ⟨0, 0, 0, 0⟩
  | .awaitExtLen =>
    d.cursor.toNat ≤ 56 ∧ d.cursor.toNat % 8 = 0 ∧ d.body = [] ∧
      ∀ i < d.cursor.toNat + 8, d.length.getLsbD i = false
  | .awaitKey =>
    d.mask = true ∧ d.cursor.toNat ≤ 3 ∧ d.length.toNat < 2 ^ 32 ∧ d.body.length = d.length.toNat
  | .awaitBody =>
    d.mask = false ∧ d.cursor.toNat < d.length.toNat ∧ d.length.toNat < 2 ^ 32 ∧
      d.body.length = d.length.toNat
  | .awaitMaskedBody =>
    d.mask = true ∧ d.cursor.toNat < d.length.toNat ∧ d.length.toNat < 2 ^ 32 ∧
      d.body.length = d.length.toNat
  | .reserved6 => False
  | .reserved7 => False

/-- The decoder's invariant: a legal tag (R90), never both sticky flags (R100), a body buffer within
the capacity (R20), and R40 as long as no capacity fault has stopped the decoder. -/
structure Dec.Inv (cap : Nat) (d : Dec) : Prop where
  legal : d.dstate.isReserved = false
  oneFlag : ¬(d.ended = true ∧ d.dfault = true)
  buffer : d.body.length ≤ cap
  phase : d.dfault = false → d.PhaseInv

/-- The sentinel of a stream: there is none before End, and after End exactly one, the last element
(R61 (d), R173). -/
def SentinelLast {α : Type} (sentinel : α) (ended : Bool) (stream : List α) : Prop :=
  if ended then ∃ before, stream = before ++ [sentinel] ∧ sentinel ∉ before
  else sentinel ∉ stream

/-- A record as R116 has it: Text exactly when the opcode is 1, and a body within the capacity and
below 2^32 bytes. -/
def Frame.Proper (cap : Nat) (r : Frame) : Prop :=
  (r.kind = .text ↔ r.opcode = 1) ∧ r.body.length ≤ cap ∧ r.body.length < 2 ^ 32

/-- The machine's invariant. -/
structure State.Inv (s : State) : Prop where
  decoder : s.dec.Inv s.params.bodyCapacity
  dout : SentinelLast DecEvent.sentinel s.dec.ended s.dec.dout
  records : ∀ r, DecEvent.frame r ∈ s.dec.dout → r.Proper s.params.bodyCapacity
  eout : SentinelLast EncEvent.sentinel s.enc.eended s.enc.eout
  chunks : ∀ bs, EncEvent.chunk bs ∈ s.enc.eout → bs ≠ []

/-! ### Runs of several operations -/

/-- The operations run one after another, each to completion, up to the first that stops (R16). -/
def runOps : List Instr → State → Host.Outcome State Fault Refusal
  | [], s => .next s
  | i :: is, s =>
    match exec i s with
    | .next t => runOps is t
    | .fault r => .fault r
    | .refused r => .refused r

/-- The bytes of the chunks in a list of encoder events, in order (R150). -/
def chunkBytes : List EncEvent → Bytes
  | [] => []
  | .chunk bs :: evs => bs ++ chunkBytes evs
  | .sentinel :: evs => chunkBytes evs

/-! ### The frame parser (R119) -/

/-- `(L, i)` of R119: the retained length and what follows the length bytes; none if a byte is
missing. -/
def parseLength (l7 : BitVec 7) (s : Bytes) : Option (Nat × Bytes) :=
  if l7.toNat ≤ 125 then some (l7.toNat, s)
  else if l7.toNat = 126 then
    match s with
    | e0 :: e1 :: rest => some (e0.toNat * 2 ^ 8 + e1.toNat, rest)
    | _ => none
  else
    match s with
    | e0 :: e1 :: e2 :: e3 :: e4 :: e5 :: e6 :: e7 :: rest =>
      some ((e0.toNat * 2 ^ 56 + e1.toNat * 2 ^ 48 + e2.toNat * 2 ^ 40 + e3.toNat * 2 ^ 32 +
        e4.toNat * 2 ^ 24 + e5.toNat * 2 ^ 16 + e6.toNat * 2 ^ 8 + e7.toNat) % 2 ^ 32, rest)
    | _ => none

/-- The key of R119, when the frame is masked, and what follows it; none if a byte is missing. -/
def parseKey (m : Bool) (s : Bytes) : Option (Option Key × Bytes) :=
  if m then
    match s with
    | k0 :: k1 :: k2 :: k3 :: rest => some (some ⟨k0, k1, k2, k3⟩, rest)
    | _ => none
  else some (none, s)

/-- `parseFrame(s)` (R119): the first frame of `s` and the bytes after it; none for Incomplete. -/
def parseFrame (s : Bytes) : Option (Frame × Bytes) :=
  match s with
  | b0 :: b1 :: rest =>
    match parseLength (bits6to0 b1) rest with
    | none => none
    | some (L, afterLength) =>
      match parseKey (bit7 b1) afterLength with
      | none => none
      | some (key, afterKey) =>
        if afterKey.length < L then none
        else
          some (⟨bit7 b0, bits3to0 b0, bit7 b1, kindOf (bits3to0 b0),
            wirePayload key (afterKey.take L)⟩, afterKey.drop L)
  | _ => none

end Sys2Proof.Machine
end

