-- ==== Sys2Proof/Certificates/Slice0/Obligations.lean ====
section
/-! DEFINITION. The statements for the provers. Each docstring names the rules of spec/ it rests on, and
the log entry where a clause is the model's own choice. -/

open Sys2Proof Sys2Proof.Machine

/-! ### Reset, fetching and decoding -/

/-- Construction leaves the values of R200 and R201, with the parameters of R6. The spec marks the
initial values as its own (D5); the empty input and response lists are the model's fields (log
entries 2 and 3). -/
def Obligations.ResetHoldsTheConstructionValues : Prop :=
  State.reset.dec.dstate = .awaitFlags ∧ State.reset.dec.cursor = 0 ∧ State.reset.dec.fin = false ∧
  State.reset.dec.opcode = 0 ∧ State.reset.dec.mask = false ∧ State.reset.dec.length = 0 ∧
  State.reset.dec.key = ⟨0, 0, 0, 0⟩ ∧ State.reset.dec.body = [] ∧
  State.reset.dec.ended = false ∧ State.reset.dec.dfault = false ∧ State.reset.dec.dout = [] ∧
  State.reset.enc.eended = false ∧ State.reset.enc.eout = [] ∧
  State.reset.params.bodyCapacity = 2 ^ 32 - 1 ∧ State.reset.params.encMaskSupported = false ∧
  State.reset.input = [] ∧ State.reset.responses = []

/-- A step takes the head of the input and runs the instruction it decodes to; a wire byte is decoded
through the selector word that dstate and the byte form (R95, R104). With nothing to take the units
hold their state (R185). The input list is the model's own (log entry 2), and so is the third clause:
that `step` refuses a word which decodes to no instruction is the model's choice (log entry 13). -/
def Obligations.StepRunsTheDecodedInstruction : Prop :=
  (∀ (s : State) (p : PortWord) (rest : List Input) (i : Instr),
    s.input = .word p :: rest → decode p = .ok i → i.wellFormed = true →
      step s = exec i { s with input := rest }) ∧
  (∀ (s : State) (b : Byte) (rest : List Input) (i : Instr),
    s.input = .byte b :: rest → decode (.uop (s.dec.dstate.code ++ b)) = .ok i →
      i.wellFormed = true → step s = exec i { s with input := rest }) ∧
  (∀ (s : State) (p : PortWord) (rest : List Input) (e : DecodeError),
    s.input = .word p :: rest → decode p = .error e → step s = .refused (.badWord e)) ∧
  (∀ s : State, s.input = [] → step s = .next s)

/-- A placed table word is what the next step runs, with the rest of the input, the encoder, the
parameters and the statuses as they were; the decoder is moved only for a selector word of another
state. The placing is the model's own (log entry 4). -/
def Obligations.PlacedWordIsRunByTheNextStep : Prop :=
  ∀ (s : State) (nbits w : Nat) (i : Instr), decodeTableWord nbits w = some i →
    ∃ t : State, step (s.withFetchWord nbits w) = exec i t ∧ t.input = s.input ∧ t.enc = s.enc ∧
      t.params = s.params ∧ t.responses = s.responses ∧
      ((∀ g, microOperationTag i = some g → s.dec.dstate = g) →
        (∀ b, i ≠ .uopReserved6 b ∧ i ≠ .uopReserved7 b) → t.dec = s.dec)

/-- Words written out bit by bit from R71 to R74 and R95 decode to the instructions they stand for. -/
def Obligations.SpecWordsDecodeToTheirRows : Prop :=
  decode (.decToken 0b00 [0x81, 0x05]) = .ok (.decFeed [0x81, 0x05]) ∧
  decode (.decToken 0b01 []) = .ok .decEnd ∧
  decode (.encToken 0b01 none) = .ok .encEnd ∧
  decode (.uop 0b00011111001) = .ok (.uopFlags 0b11111001) ∧
  decode (.uop 0b00110000101) = .ok (.uopLenShort true 5) ∧
  decode (.uop 0b00111111110) = .ok (.uopLenExt16 true) ∧
  decode (.uop 0b00101111111) = .ok (.uopLenExt64 false) ∧
  decode (.uop 0b10110100101) = .ok (.uopMaskedBody 0b10100101) ∧
  decode (.hdr0 0b10111001) = .ok (.wireHdr0 true 0b011 0b1001) ∧
  decode (.hdr1 0b01111110 [0x01, 0x2C]) = .ok (.wireHdr1Ext16 false 300) ∧
  decode (.opcodeByte 0b10001010) = .ok (.opcodeA true 0b000)

/-- Decoding an encoded well-formed instruction gives it back, for every instruction and operand. -/
def Obligations.DecodeInvertsEncode : Prop :=
  ∀ i : Instr, i.wellFormed = true → decode (encode i) = .ok i

/-- Each accepted word has one meaning: it decodes to a well-formed instruction that encodes to it. -/
def Obligations.EncodeInvertsDecode : Prop :=
  ∀ (p : PortWord) (i : Instr), decode p = .ok i → i.wellFormed = true ∧ encode i = p

/-- R93 and R95: the selector word of a state and a byte is `dstate<<8 | b`, and it decodes to the one
micro-operation of R93's table, with the reserved rows for the reserved tags (R90). -/
def Obligations.EveryByteSelectsOneMicroOperation : Prop :=
  ∀ (t : Tag) (b : Byte),
    (selector t b).toNat = t.code.toNat * 256 + b.toNat ∧
    decode (.uop (selector t b)) = .ok (match t with
      | .awaitFlags => .uopFlags b
      | .awaitLen =>
        if (b &&& 0x7F).toNat ≤ 125 then .uopLenShort (b.getLsbD 7) ((b &&& 0x7F).setWidth 7)
        else if b &&& 0x7F = 126 then .uopLenExt16 (b.getLsbD 7)
        else .uopLenExt64 (b.getLsbD 7)
      | .awaitExtLen => .uopExtLen b
      | .awaitKey => .uopKey b
      | .awaitBody => .uopBody b
      | .awaitMaskedBody => .uopMaskedBody b
      | .reserved6 => .uopReserved6 b
      | .reserved7 => .uopReserved7 b)

/-- R73 and R74: the length bytes are big-endian, for every value. -/
def Obligations.LengthBytesAreBigEndian : Prop :=
  (∀ e0 e1 : Byte, (ext16Value e0 e1).toNat = e0.toNat * 2 ^ 8 + e1.toNat ∧
    be2 (ext16Value e0 e1).toNat = [e0, e1]) ∧
  (∀ e0 e1 e2 e3 e4 e5 e6 e7 : Byte,
    (ext64Value e0 e1 e2 e3 e4 e5 e6 e7).toNat =
      e0.toNat * 2 ^ 56 + e1.toNat * 2 ^ 48 + e2.toNat * 2 ^ 40 + e3.toNat * 2 ^ 32 +
        e4.toNat * 2 ^ 24 + e5.toNat * 2 ^ 16 + e6.toNat * 2 ^ 8 + e7.toNat ∧
    be8 (ext64Value e0 e1 e2 e3 e4 e5 e6 e7).toNat = [e0, e1, e2, e3, e4, e5, e6, e7])

/-! ### The micro-operations: new register values, and everything else as it was

That a row goes through the dispatch and returns one status is the model's reading (log entry 6). -/

/-- R107: FLAGS takes FIN and the opcode from header byte 0, ignores RSV, and awaits the length; every
other register, both streams and the encoder stay.
The status the row returns is the model's reading (log entry 6). -/
def Obligations.FlagsByteRecordsFinAndOpcode : Prop :=
  ∀ (s : State) (b : Byte), s.dec.Ready → s.dec.dstate = .awaitFlags →
    exec (.uopFlags b) s = .next { s with
      dec := { s.dec with
        fin := b.getLsbD 7, opcode := b.extractLsb' 0 4, dstate := .awaitLen }
      responses := s.responses ++ [⟨.dec, .ok, .nothing⟩] }

/-- R108: LEN_SHORT takes MASK and the inline length, then allocates and enters the key phase, the body
phase, or emits at once when unmasked and empty; over the capacity it raises CapacityExceeded. What the
registers hold after that fault is the model's reading of R175 (log entry 15; I15 allows any value), and
the diagnostic beside the status is the model's too (log entry 3; I19).
The status the row returns is the model's reading (log entry 6). -/
def Obligations.ShortLengthByteEntersThePayload : Prop :=
  ∀ (s : State) (m : Bool) (l : BitVec 7), s.dec.Ready → s.dec.dstate = .awaitLen →
    l.toNat ≤ 125 →
    (l.toNat ≤ s.params.bodyCapacity → m = true →
      exec (.uopLenShort m l) s = .next { s with
        dec := { s.dec with
          mask := true, length := l.setWidth 64, body := List.replicate l.toNat 0, cursor := 0,
          dstate := .awaitKey }
        responses := s.responses ++ [⟨.dec, .ok, .nothing⟩] }) ∧
    (l.toNat ≤ s.params.bodyCapacity → m = false → l ≠ 0 →
      exec (.uopLenShort m l) s = .next { s with
        dec := { s.dec with
          mask := false, length := l.setWidth 64, body := List.replicate l.toNat 0, cursor := 0,
          dstate := .awaitBody }
        responses := s.responses ++ [⟨.dec, .ok, .nothing⟩] }) ∧
    (m = false → l = 0 →
      exec (.uopLenShort m l) s = .next { s with
        dec := { Dec.reset with
          dout := s.dec.dout ++
            [.frame ⟨s.dec.fin, s.dec.opcode, false,
              if s.dec.opcode = 1 then .text else .binary, []⟩] }
        responses := s.responses ++ [⟨.dec, .ok, .nothing⟩] }) ∧
    (s.params.bodyCapacity < l.toNat →
      exec (.uopLenShort m l) s = .next { s with
        dec := { s.dec with mask := m, length := l.setWidth 64, dfault := true }
        responses := s.responses ++ [⟨.dec, .capacityExceeded, .bodyLength l.toNat⟩] })

/-- R109 and R110: the indicators 126 and 127 take MASK and start the shift at 8 or 56. That length is
cleared is the spec's decision D6.
The status the row returns is the model's reading (log entry 6). -/
def Obligations.ExtendedIndicatorsStartTheShift : Prop :=
  ∀ (s : State) (m : Bool), s.dec.Ready → s.dec.dstate = .awaitLen →
    exec (.uopLenExt16 m) s = .next { s with
      dec := { s.dec with mask := m, length := 0, cursor := 8, dstate := .awaitExtLen }
      responses := s.responses ++ [⟨.dec, .ok, .nothing⟩] } ∧
    exec (.uopLenExt64 m) s = .next { s with
      dec := { s.dec with mask := m, length := 0, cursor := 56, dstate := .awaitExtLen }
      responses := s.responses ++ [⟨.dec, .ok, .nothing⟩] }

/-- R111, first half: at a shift other than 0 the byte is ORed in and the shift drops by 8.
The status the row returns is the model's reading (log entry 6). -/
def Obligations.LengthByteOrsAtTheShift : Prop :=
  ∀ (s : State) (b : Byte), s.dec.Ready → s.dec.dstate = .awaitExtLen →
    s.dec.cursor.toNat ∈ [8, 16, 24, 32, 40, 48, 56] →
    exec (.uopExtLen b) s = .next { s with
      dec := { s.dec with
        length := s.dec.length ||| (b.setWidth 64 <<< s.dec.cursor.toNat)
        cursor := BitVec.ofNat 32 (s.dec.cursor.toNat - 8) }
      responses := s.responses ++ [⟨.dec, .ok, .nothing⟩] }

/-- R111, second half: the byte at shift 0 is the last (D8); the length is kept mod 2^32 (R8), and the
payload is entered (R105) or the capacity is exceeded (R106). What the registers hold after that fault
is the model's reading of R175 (log entry 15; I15 allows any value), and the diagnostic beside the status
is the model's too (log entry 3; I19).
The status the row returns is the model's reading (log entry 6). -/
def Obligations.LastLengthByteTruncatesAndEnters : Prop :=
  ∀ (s : State) (b : Byte) (L : Nat), s.dec.Ready → s.dec.dstate = .awaitExtLen →
    s.dec.cursor = 0 → L = (s.dec.length.toNat ||| b.toNat) % 2 ^ 32 →
    (L ≤ s.params.bodyCapacity → s.dec.mask = true →
      exec (.uopExtLen b) s = .next { s with
        dec := { s.dec with
          length := BitVec.ofNat 64 L, body := List.replicate L 0, dstate := .awaitKey }
        responses := s.responses ++ [⟨.dec, .ok, .nothing⟩] }) ∧
    (L ≤ s.params.bodyCapacity → s.dec.mask = false → L ≠ 0 →
      exec (.uopExtLen b) s = .next { s with
        dec := { s.dec with
          length := BitVec.ofNat 64 L, body := List.replicate L 0, dstate := .awaitBody }
        responses := s.responses ++ [⟨.dec, .ok, .nothing⟩] }) ∧
    (s.dec.mask = false → L = 0 →
      exec (.uopExtLen b) s = .next { s with
        dec := { Dec.reset with
          dout := s.dec.dout ++
            [.frame ⟨s.dec.fin, s.dec.opcode, false,
              if s.dec.opcode = 1 then .text else .binary, []⟩] }
        responses := s.responses ++ [⟨.dec, .ok, .nothing⟩] }) ∧
    (s.params.bodyCapacity < L →
      exec (.uopExtLen b) s = .next { s with
        dec := { s.dec with length := BitVec.ofNat 64 L, dfault := true }
        responses := s.responses ++ [⟨.dec, .capacityExceeded, .bodyLength L⟩] })

/-- R112: KEY_BYTE stores the byte at KEY[cursor]; the fourth allocates again and opens the masked
body, or emits when the length is 0. The length is within the capacity, which the decoder's invariant
gives (R40, R20).
The status the row returns is the model's reading (log entry 6). -/
def Obligations.KeyByteFillsTheKeyAndTheFourthOpensTheBody : Prop :=
  ∀ (s : State) (b : Byte), s.dec.Ready → s.dec.dstate = .awaitKey →
    s.dec.length.toNat ≤ s.params.bodyCapacity →
    (s.dec.cursor = 0 →
      exec (.uopKey b) s = .next { s with
        dec := { s.dec with key := { s.dec.key with k0 := b }, cursor := 1 }
        responses := s.responses ++ [⟨.dec, .ok, .nothing⟩] }) ∧
    (s.dec.cursor = 1 →
      exec (.uopKey b) s = .next { s with
        dec := { s.dec with key := { s.dec.key with k1 := b }, cursor := 2 }
        responses := s.responses ++ [⟨.dec, .ok, .nothing⟩] }) ∧
    (s.dec.cursor = 2 →
      exec (.uopKey b) s = .next { s with
        dec := { s.dec with key := { s.dec.key with k2 := b }, cursor := 3 }
        responses := s.responses ++ [⟨.dec, .ok, .nothing⟩] }) ∧
    (s.dec.cursor = 3 → s.dec.length ≠ 0 →
      exec (.uopKey b) s = .next { s with
        dec := { s.dec with
          key := { s.dec.key with k3 := b }, cursor := 0,
          body := List.replicate s.dec.length.toNat 0, dstate := .awaitMaskedBody }
        responses := s.responses ++ [⟨.dec, .ok, .nothing⟩] }) ∧
    (s.dec.cursor = 3 → s.dec.length = 0 →
      exec (.uopKey b) s = .next { s with
        dec := { Dec.reset with
          dout := s.dec.dout ++
            [.frame ⟨s.dec.fin, s.dec.opcode, s.dec.mask,
              if s.dec.opcode = 1 then .text else .binary, []⟩] }
        responses := s.responses ++ [⟨.dec, .ok, .nothing⟩] })

/-- R113: BODY_BYTE stores the byte at BODY[cursor]; when the cursor reaches the length the frame is
emitted and the session is reset (R115, R116, R31).
The status the row returns is the model's reading (log entry 6). -/
def Obligations.BodyByteIsStoredAndTheLastEmits : Prop :=
  ∀ (s : State) (b : Byte), s.dec.Ready → s.dec.dstate = .awaitBody →
    s.dec.cursor.toNat < s.dec.length.toNat → s.dec.length.toNat < 2 ^ 32 →
    s.dec.body.length = s.dec.length.toNat →
    (s.dec.cursor.toNat + 1 < s.dec.length.toNat →
      exec (.uopBody b) s = .next { s with
        dec := { s.dec with
          body := s.dec.body.set s.dec.cursor.toNat b
          cursor := BitVec.ofNat 32 (s.dec.cursor.toNat + 1) }
        responses := s.responses ++ [⟨.dec, .ok, .nothing⟩] }) ∧
    (s.dec.cursor.toNat + 1 = s.dec.length.toNat →
      exec (.uopBody b) s = .next { s with
        dec := { Dec.reset with
          dout := s.dec.dout ++
            [.frame ⟨s.dec.fin, s.dec.opcode, s.dec.mask,
              if s.dec.opcode = 1 then .text else .binary,
              s.dec.body.set s.dec.cursor.toNat b⟩] }
        responses := s.responses ++ [⟨.dec, .ok, .nothing⟩] })

/-- R114: MASKED_BODY_BYTE stores the byte XORed with KEY[cursor mod 4]; when the cursor reaches the
length the frame is emitted and the session is reset (R115, R116, R31).
The status the row returns is the model's reading (log entry 6). -/
def Obligations.MaskedBodyByteIsUnmaskedAndStored : Prop :=
  ∀ (s : State) (b : Byte), s.dec.Ready → s.dec.dstate = .awaitMaskedBody →
    s.dec.cursor.toNat < s.dec.length.toNat → s.dec.length.toNat < 2 ^ 32 →
    s.dec.body.length = s.dec.length.toNat →
    ∀ k : Byte,
    [s.dec.key.k0, s.dec.key.k1, s.dec.key.k2, s.dec.key.k3][s.dec.cursor.toNat % 4]? = some k →
    (s.dec.cursor.toNat + 1 < s.dec.length.toNat →
      exec (.uopMaskedBody b) s = .next { s with
        dec := { s.dec with
          body := s.dec.body.set s.dec.cursor.toNat (b ^^^ k)
          cursor := BitVec.ofNat 32 (s.dec.cursor.toNat + 1) }
        responses := s.responses ++ [⟨.dec, .ok, .nothing⟩] }) ∧
    (s.dec.cursor.toNat + 1 = s.dec.length.toNat →
      exec (.uopMaskedBody b) s = .next { s with
        dec := { Dec.reset with
          dout := s.dec.dout ++
            [.frame ⟨s.dec.fin, s.dec.opcode, s.dec.mask,
              if s.dec.opcode = 1 then .text else .binary,
              s.dec.body.set s.dec.cursor.toNat (b ^^^ k)⟩] }
        responses := s.responses ++ [⟨.dec, .ok, .nothing⟩] })

/-- The micro-operation that a byte selects does exactly what Feed of that one byte does. R92 says it of
`dec.byte`; that a micro-operation row, too, goes through the dispatch, checks the sticky flags and
returns a status is the model's reading (log entry 6). -/
def Obligations.SelectedMicroOperationIsAOneByteFeed : Prop :=
  ∀ (s : State) (b : Byte) (i : Instr), s.dec.dstate.isReserved = false →
    decode (.uop (s.dec.dstate.code ++ b)) = .ok i → exec i s = exec (.decFeed [b]) s

/-- A micro-operation row whose tag is not the decoder's is stopped: no byte forms its selector word
there (R93). The stop is the model's choice (log entry 6). -/
def Obligations.MicroOperationOfAnotherStateIsStopped : Prop :=
  ∀ (s : State) (i : Instr) (t : Tag), s.dec.Ready → microOperationTag i = some t →
    s.dec.dstate ≠ t → exec i s = .fault .notSelected

/-! ### The decoder's host operations -/

/-- R102: Feed is the fold of its bytes, left to right. The empty chunk changes nothing but returns OK
(D26), and a first byte that is taken leaves the rest to be fed from the state it leaves. -/
def Obligations.FeedTakesItsBytesLeftToRight : Prop :=
  (∀ s : State, s.dec.Ready →
    exec (.decFeed []) s = .next { s with
      responses := s.responses ++ [⟨.dec, .ok, .nothing⟩] }) ∧
  (∀ (s t : State) (b : Byte) (bs : Bytes), s.dec.Ready → exec (.decFeed [b]) s = .next t →
    t.responses = s.responses ++ [⟨.dec, .ok, .nothing⟩] →
    exec (.decFeed (b :: bs)) s = exec (.decFeed bs) { t with responses := s.responses }) ∧
  (∀ (s t : State) (b : Byte) (bs : Bytes), s.dec.Ready → exec (.decFeed [b]) s = .next t →
    t.responses ≠ s.responses ++ [⟨.dec, .ok, .nothing⟩] →
    exec (.decFeed (b :: bs)) s = .next t)

/-- R102 and R121: from a state of the invariant, Feed of any bytes completes. It returns OK when the
capacity has its default, and otherwise OK or CapacityExceeded, whose diagnostic is the model's (log
entry 3). -/
def Obligations.FeedCompletesOnEveryByteSequence : Prop :=
  ∀ (s : State) (chunk : Bytes), s.dec.Ready → s.dec.Inv s.params.bodyCapacity →
    ∃ (t : State) (r : Response), exec (.decFeed chunk) s = .next t ∧
      t.responses = s.responses ++ [r] ∧ t.enc = s.enc ∧ t.params = s.params ∧
      t.input = s.input ∧
      (2 ^ 32 - 1 ≤ s.params.bodyCapacity → r = ⟨.dec, .ok, .nothing⟩ ∧ t.dec.dfault = false) ∧
      (r = ⟨.dec, .ok, .nothing⟩ ∧ t.dec.dfault = false ∨
        ∃ n, r = ⟨.dec, .capacityExceeded, .bodyLength n⟩ ∧ s.params.bodyCapacity < n ∧
          t.dec.dfault = true)

/-- R103: End appends the sentinel and sets ended, and nothing else; a partial frame is dropped without
a record, and the session registers keep their values (D29). -/
def Obligations.DecoderEndForwardsTheSentinel : Prop :=
  ∀ s : State, s.dec.Ready →
    exec .decEnd s = .next { s with
      dec := { s.dec with dout := s.dec.dout ++ [.sentinel], ended := true }
      responses := s.responses ++ [⟨.dec, .ok, .nothing⟩] }

/-- R101: Invalid returns InvalidInput and writes nothing (D14). The diagnostic beside the status is the
model's (log entry 3). -/
def Obligations.DecoderInvalidChangesNothing : Prop :=
  ∀ s : State, s.dec.Ready →
    exec .decInvalid s = .next { s with
      responses := s.responses ++ [⟨.dec, .invalidInput, .token⟩] }

/-- R200 and R201: construction of a unit, from every state, gives it its reset values and an empty
stream, and leaves the other unit. That no status is returned is the model's choice (log entry 3). -/
def Obligations.ConstructionResetsItsUnitOnly : Prop :=
  ∀ s : State,
    exec .decReset s = .next { s with
      dec := {
        dstate := .awaitFlags, cursor := 0, fin := false, opcode := 0, mask := false, length := 0,
        key := ⟨0, 0, 0, 0⟩, body := [], ended := false, dfault := false, dout := [] } } ∧
    exec .encReset s = .next { s with enc := { eended := false, eout := [] } }

/-! ### The encoder -/

/-- R141: End appends the sentinel and sets eended, and nothing else. -/
def Obligations.EncoderEndForwardsTheSentinel : Prop :=
  ∀ s : State, s.enc.eended = false →
    exec .encEnd s = .next { s with
      enc := { eended := true, eout := s.enc.eout ++ [.sentinel] }
      responses := s.responses ++ [⟨.enc, .ok, .nothing⟩] }

/-- R148: the header is `fin<<7 | opcode`, `mask<<7 | lengthField`, and no, 2 or 8 big-endian length
bytes. -/
def Obligations.HeaderFollowsTheLengthForms : Prop :=
  ∀ (finb maskb : Bool) (op : BitVec 4) (L : Nat) (b0 : Byte),
    b0 = BitVec.ofNat 8 (finb.toNat * 128 + op.toNat) →
    (L < 126 →
      header finb op maskb L = [b0, BitVec.ofNat 8 (maskb.toNat * 128 + L)]) ∧
    (126 ≤ L → L < 65536 →
      header finb op maskb L = [b0, BitVec.ofNat 8 (maskb.toNat * 128 + 126),
        BitVec.ofNat 8 (L / 256), BitVec.ofNat 8 (L % 256)]) ∧
    (65536 ≤ L → L < 2 ^ 64 →
      header finb op maskb L = [b0, BitVec.ofNat 8 (maskb.toNat * 128 + 127),
        BitVec.ofNat 8 (L / 256 ^ 7), BitVec.ofNat 8 (L / 256 ^ 6), BitVec.ofNat 8 (L / 256 ^ 5),
        BitVec.ofNat 8 (L / 256 ^ 4), BitVec.ofNat 8 (L / 256 ^ 3), BitVec.ofNat 8 (L / 256 ^ 2),
        BitVec.ofNat 8 (L / 256), BitVec.ofNat 8 L])

/-- R54: payload byte i is XORed with key byte i mod 4, where key byte 0 is the first on the wire. -/
def Obligations.MaskingIsByPosition : Prop :=
  ∀ (k : Key) (p : Bytes),
    wireKey (some k) = [k.k0, k.k1, k.k2, k.k3] ∧ (wirePayload (some k) p).length = p.length ∧
    ∀ (i : Nat) (b kb : Byte), p[i]? = some b → [k.k0, k.k1, k.k2, k.k3][i % 4]? = some kb →
      (wirePayload (some k) p)[i]? = some (b ^^^ kb)

/-- R142 to R145, R149: a record without a mask request becomes one header chunk, and one chunk with
the body when it is not empty; FIN and the opcode take their defaults, and a number is reduced mod 16.
The port precondition is R142's. The order of the steps is the spec's decision D15. -/
def Obligations.UnmaskedFrameIsHeaderThenBody : Prop :=
  ∀ (s : State) (f : FrameIn) (bytes : Bytes) (isText : Bool) (op : BitVec 4),
    s.enc.eended = false → bytes.length < 2 ^ 64 →
    (f.body = .text bytes ∧ isText = true ∨ f.body = .binary bytes ∧ isText = false) →
    (f.opcode = .absent ∧ op = (if isText then 1 else 2) ∨
      ∃ n : Int, f.opcode = .num n ∧ (op.toNat : Int) = n % 16) →
    f.mask ≠ some true →
    exec (.encFrame f) s = .next { s with
      enc := { s.enc with
        eout := s.enc.eout ++ .chunk (header (f.fin.getD true) op false bytes.length) ::
          (if bytes = [] then [] else [.chunk bytes]) }
      responses := s.responses ++ [⟨.enc, .ok, .nothing⟩] }

/-- R147 (the spec's own option, D19): with the option on and a key given, the key follows the header
in its chunk, and the body chunk is masked. -/
def Obligations.MaskedFrameCarriesItsKey : Prop :=
  ∀ (s : State) (f : FrameIn) (k : Key) (bytes : Bytes) (isText : Bool) (op : BitVec 4),
    s.enc.eended = false → s.params.encMaskSupported = true → bytes.length < 2 ^ 64 →
    (f.body = .text bytes ∧ isText = true ∨ f.body = .binary bytes ∧ isText = false) →
    (f.opcode = .absent ∧ op = (if isText then 1 else 2) ∨
      ∃ n : Int, f.opcode = .num n ∧ (op.toNat : Int) = n % 16) →
    f.mask = some true → f.key = some k →
    exec (.encFrame f) s = .next { s with
      enc := { s.enc with
        eout := s.enc.eout ++
          .chunk (header (f.fin.getD true) op true bytes.length ++ [k.k0, k.k1, k.k2, k.k3]) ::
          (if bytes = [] then [] else [.chunk (wirePayload (some k) bytes)]) }
      responses := s.responses ++ [⟨.enc, .ok, .nothing⟩] }

/-- R177: the encoder's checks in their order: body, opcode, mask. Each error only returns its status
(R174). The order is the spec's decision D15, and the diagnostic, R170's, is the model's (log entry
3). -/
def Obligations.EncoderErrorsInTheirOrder : Prop :=
  ∀ (s : State) (f : FrameIn), s.enc.eended = false →
    (f.body = .invalid →
      exec (.encFrame f) s = .next { s with
        responses := s.responses ++ [⟨.enc, .invalidInput, .body⟩] }) ∧
    (f.body ≠ .invalid → f.opcode = .nonNumeric →
      exec (.encFrame f) s = .next { s with
        responses := s.responses ++ [⟨.enc, .invalidInput, .opcode⟩] }) ∧
    (f.body ≠ .invalid → f.opcode ≠ .nonNumeric → f.mask = some true →
      (s.params.encMaskSupported = false ∨ f.key = none) →
      exec (.encFrame f) s = .next { s with
        responses := s.responses ++ [⟨.enc, .unsupported, .nothing⟩] })

/-- R151: the status and the chunks of Encode depend only on the record and on the option. -/
def Obligations.EncodeDependsOnRecordAndOptionOnly : Prop :=
  ∀ (s t s' t' : State) (f : FrameIn), s.enc.eended = false → t.enc.eended = false →
    s.params.encMaskSupported = t.params.encMaskSupported →
    exec (.encFrame f) s = .next s' → exec (.encFrame f) t = .next t' →
    ∃ (evs : List EncEvent) (r : Response),
      s'.enc = { s.enc with eout := s.enc.eout ++ evs } ∧
      t'.enc = { t.enc with eout := t.enc.eout ++ evs } ∧
      s'.responses = s.responses ++ [r] ∧ t'.responses = t.responses ++ [r]

/-! ### Wire rows -/

/-- R71 and R78: header byte 0, in whichever row it is written, gives the decoder FIN and the opcode;
RSV has no effect (R87). That the row's meaning is the Feed of its byte is the model's choice (log
entry 7). -/
def Obligations.HeaderByteZeroRowsRecordFinAndOpcode : Prop :=
  ∀ (s : State) (f : Bool) (r : BitVec 3), s.dec.Ready → s.dec.dstate = .awaitFlags →
    let taken (o : BitVec 4) : Host.Outcome State Fault Refusal := .next { s with
      dec := { s.dec with fin := f, opcode := o, dstate := .awaitLen }
      responses := s.responses ++ [⟨.dec, .ok, .nothing⟩] }
    (∀ o, exec (.wireHdr0 f r o) s = taken o) ∧
    exec (.opcode0 f r) s = taken 0 ∧ exec (.opcode1 f r) s = taken 1 ∧
    exec (.opcode2 f r) s = taken 2 ∧ exec (.opcode3 f r) s = taken 3 ∧
    exec (.opcode4 f r) s = taken 4 ∧ exec (.opcode5 f r) s = taken 5 ∧
    exec (.opcode6 f r) s = taken 6 ∧ exec (.opcode7 f r) s = taken 7 ∧
    exec (.opcode8 f r) s = taken 8 ∧ exec (.opcode9 f r) s = taken 9 ∧
    exec (.opcodeA f r) s = taken 10 ∧ exec (.opcodeB f r) s = taken 11 ∧
    exec (.opcodeC f r) s = taken 12 ∧ exec (.opcodeD f r) s = taken 13 ∧
    exec (.opcodeE f r) s = taken 14 ∧ exec (.opcodeF f r) s = taken 15

/-- R72 to R74, R79: header byte 1 with its length bytes leaves the retained length, which is the
literal, the 16-bit value, or the 64-bit value mod 2^32, and enters the payload phase. That the row's
meaning is the Feed of its bytes is the model's choice (log entry 7). -/
def Obligations.HeaderByteOneRowsRetainTheLength : Prop :=
  ∀ (s : State) (m : Bool) (L : Nat) (i : Instr), s.dec.Ready → s.dec.dstate = .awaitLen →
    ((∃ l : BitVec 7, l.toNat ≤ 125 ∧ i = .wireHdr1Short m l ∧ L = l.toNat) ∨
      (∃ len : BitVec 16, i = .wireHdr1Ext16 m len ∧ L = len.toNat) ∨
      (∃ len : BitVec 64, i = .wireHdr1Ext64 m len ∧ L = len.toNat % 2 ^ 32)) →
    L ≤ s.params.bodyCapacity →
    exec i s = .next { s with
      dec :=
        if m = false ∧ L = 0 then
          { Dec.reset with
            dout := s.dec.dout ++
              [.frame ⟨s.dec.fin, s.dec.opcode, false,
                if s.dec.opcode = 1 then .text else .binary, []⟩] }
        else
          { s.dec with
            mask := m, length := BitVec.ofNat 64 L, body := List.replicate L 0, cursor := 0,
            dstate := if m then .awaitKey else .awaitBody }
      responses := s.responses ++ [⟨.dec, .ok, .nothing⟩] }

/-- A wire row, WIRE_HDR0, WIRE_HDR1 or OPCODE_0 to OPCODE_F, is the Feed of its bytes in every state.
That this is its meaning is the model's reading (log entry 7). -/
def Obligations.WireRowsAreTheFeedOfTheirBytes : Prop :=
  ∀ s : State,
    (∀ f r o, exec (.wireHdr0 f r o) s = exec (.decFeed [hdr0Byte f r o]) s) ∧
    (∀ m l, exec (.wireHdr1Short m l) s = exec (.decFeed [hdr1Byte m l]) s) ∧
    (∀ m e0 e1, exec (.wireHdr1Ext16 m (ext16Value e0 e1)) s =
      exec (.decFeed [hdr1Byte m 126, e0, e1]) s) ∧
    (∀ m e0 e1 e2 e3 e4 e5 e6 e7,
      exec (.wireHdr1Ext64 m (ext64Value e0 e1 e2 e3 e4 e5 e6 e7)) s =
        exec (.decFeed [hdr1Byte m 127, e0, e1, e2, e3, e4, e5, e6, e7]) s) ∧
    (∀ f r, exec (.opcode0 f r) s = exec (.decFeed [hdr0Byte f r 0]) s) ∧
    (∀ f r, exec (.opcode1 f r) s = exec (.decFeed [hdr0Byte f r 1]) s) ∧
    (∀ f r, exec (.opcode2 f r) s = exec (.decFeed [hdr0Byte f r 2]) s) ∧
    (∀ f r, exec (.opcode3 f r) s = exec (.decFeed [hdr0Byte f r 3]) s) ∧
    (∀ f r, exec (.opcode4 f r) s = exec (.decFeed [hdr0Byte f r 4]) s) ∧
    (∀ f r, exec (.opcode5 f r) s = exec (.decFeed [hdr0Byte f r 5]) s) ∧
    (∀ f r, exec (.opcode6 f r) s = exec (.decFeed [hdr0Byte f r 6]) s) ∧
    (∀ f r, exec (.opcode7 f r) s = exec (.decFeed [hdr0Byte f r 7]) s) ∧
    (∀ f r, exec (.opcode8 f r) s = exec (.decFeed [hdr0Byte f r 8]) s) ∧
    (∀ f r, exec (.opcode9 f r) s = exec (.decFeed [hdr0Byte f r 9]) s) ∧
    (∀ f r, exec (.opcodeA f r) s = exec (.decFeed [hdr0Byte f r 10]) s) ∧
    (∀ f r, exec (.opcodeB f r) s = exec (.decFeed [hdr0Byte f r 11]) s) ∧
    (∀ f r, exec (.opcodeC f r) s = exec (.decFeed [hdr0Byte f r 12]) s) ∧
    (∀ f r, exec (.opcodeD f r) s = exec (.decFeed [hdr0Byte f r 13]) s) ∧
    (∀ f r, exec (.opcodeE f r) s = exec (.decFeed [hdr0Byte f r 14]) s) ∧
    (∀ f r, exec (.opcodeF f r) s = exec (.decFeed [hdr0Byte f r 15]) s)

/-! ### Stops, sticky flags and errors -/

/-- R90, R95 and R104: the rows that no decoder state and no token has stop on every path, and a
decoder in a reserved state takes no step but construction.
That the stop comes before the flags are looked at is the model's reading (log entry 8).
That the micro-operation and wire rows are operations of the decoder is the model's reading (log
entries 6 and 7). -/
def Obligations.ReservedRowsAndTagsAreStuck : Prop :=
  (∀ (s : State) (b : Byte), exec (.uopReserved6 b) s = .fault .reservedTag ∧
    exec (.uopReserved7 b) s = .fault .reservedTag) ∧
  (∀ s : State, exec .encKindReserved s = .refused .noSuchToken) ∧
  (∀ (s : State) (i : Instr), s.dec.dstate.isReserved = true → decoderOperation i = true →
    exec i s = .fault .reservedTag)

/-- R173 (D9, D10): after End every operation of the unit returns AfterEnd and has no effect.
That the micro-operation and wire rows are operations of the decoder is the model's reading (log
entries 6 and 7). -/
def Obligations.AfterEndEveryOperationIsRefused : Prop :=
  (∀ (s : State) (i : Instr), s.dec.dstate.isReserved = false → s.dec.dfault = false →
    s.dec.ended = true → decoderOperation i = true →
    exec i s = .next { s with responses := s.responses ++ [⟨.dec, .afterEnd, .nothing⟩] }) ∧
  (∀ (s : State) (i : Instr), s.enc.eended = true → encoderOperation i = true →
    exec i s = .next { s with responses := s.responses ++ [⟨.enc, .afterEnd, .nothing⟩] })

/-- R32 and R176 (D18): with dfault set every decoder operation returns CapacityExceeded and has no
effect, even if ended were set too.
That the micro-operation and wire rows are operations of the decoder is the model's reading (log
entries 6 and 7). -/
def Obligations.CapacityFaultIsSticky : Prop :=
  ∀ (s : State) (i : Instr), s.dec.dstate.isReserved = false → s.dec.dfault = true →
    decoderOperation i = true →
    exec i s = .next { s with
      responses := s.responses ++ [⟨.dec, .capacityExceeded, .nothing⟩] }

/-- R174 (D14): an error other than the first CapacityExceeded leaves everything but the status as it
was, whatever the instruction.
That the micro-operation and wire rows are operations of the decoder is the model's reading (log
entries 6 and 7). -/
def Obligations.ErrorsArePrecise : Prop :=
  ∀ (s t : State) (i : Instr) (r : Response), exec i s = .next t →
    t.responses = s.responses ++ [r] →
    (r.status = .invalidInput ∨ r.status = .unsupported ∨ r.status = .afterEnd ∨
      r.status = .capacityExceeded ∧ s.dec.dfault = true) →
    t = { s with responses := s.responses ++ [r] }

/-- R106 and R175 (D18): the first CapacityExceeded keeps what the bytes before the faulting one did,
sets dfault, and discards the rest of the chunk. That fin and opcode are kept is the model's reading (log
entry 15), and the diagnostic is the model's (log entry 3). -/
def Obligations.FirstCapacityFaultKeepsEarlierBytes : Prop :=
  ∀ (s t : State) (chunk : Bytes) (info : Info), s.dec.Ready →
    exec (.decFeed chunk) s = .next t →
    t.responses = s.responses ++ [⟨.dec, .capacityExceeded, info⟩] →
    t.dec.dfault = true ∧
    ∃ (taken : Bytes) (b : Byte) (rest : Bytes) (u : State), chunk = taken ++ b :: rest ∧
      exec (.decFeed taken) s = .next u ∧
      u.responses = s.responses ++ [⟨.dec, .ok, .nothing⟩] ∧
      t.dec.dout = u.dec.dout ∧ t.dec.fin = u.dec.fin ∧ t.dec.opcode = u.dec.opcode ∧
      exec (.decFeed (taken ++ [b])) s = .next t ∧
      ∃ n, info = .bodyLength n ∧ s.params.bodyCapacity < n

/-! ### What every operation keeps -/

/-- R3 and R36: an operation of one unit, or its construction, leaves the other unit, the parameters
and the pending input; the streams only grow, except by construction (R34).
That the micro-operation and wire rows are operations of the decoder is the model's reading (log
entries 6 and 7). -/
def Obligations.UnitsShareNothing : Prop :=
  ∀ (s t : State) (i : Instr), exec i s = .next t →
    t.params = s.params ∧ t.input = s.input ∧
    (decoderOperation i = true ∨ i = .decReset → t.enc = s.enc) ∧
    (encoderOperation i = true ∨ i = .encReset → t.dec = s.dec) ∧
    (i ≠ .decReset → s.dec.dout <+: t.dec.dout) ∧
    (i ≠ .encReset → s.enc.eout <+: t.enc.eout)

/-- R59 and R62: what a decoder operation does to the decoder, and the status it returns, depend on
the decoder's own registers and capacity only.
That the micro-operation and wire rows are operations of the decoder is the model's reading (log
entries 6 and 7). -/
def Obligations.DecoderDependsOnItselfOnly : Prop :=
  ∀ (s t s' : State) (i : Instr), decoderOperation i = true → s.dec = t.dec →
    s.params.bodyCapacity = t.params.bodyCapacity → exec i s = .next s' →
    ∃ (t' : State) (r : Response), exec i t = .next t' ∧ t'.dec = s'.dec ∧
      s'.responses = s.responses ++ [r] ∧ t'.responses = t.responses ++ [r]

/-- R35: every operation that answers a next state returns exactly one status, from its own unit.
R35 says it of the host's tokens; that a micro-operation row and a wire row are operations of the
decoder and return one status, too, is the model's reading (log entries 6 and 7). -/
def Obligations.EveryOperationReturnsOneStatus : Prop :=
  ∀ (s t : State) (i : Instr), exec i s = .next t →
    (decoderOperation i = true → ∃ r : Response, r.port = .dec ∧ t.responses = s.responses ++ [r]) ∧
    (encoderOperation i = true → ∃ r : Response, r.port = .enc ∧ t.responses = s.responses ++ [r])

/-- R30, R32, R33, R203: the sticky flags are set only by End and by a decoder operation that returns
CapacityExceeded, and are cleared only by construction. The diagnostic named is the model's (log entry
3).
That the micro-operation and wire rows are operations of the decoder is the model's reading (log
entries 6 and 7). -/
def Obligations.OnlyEndAndConstructionMoveTheEndFlags : Prop :=
  ∀ (s t : State) (i : Instr), exec i s = .next t →
    (t.dec.ended ≠ s.dec.ended → (i = .decEnd ∧ s.dec.ended = false) ∨ i = .decReset) ∧
    (t.enc.eended ≠ s.enc.eended → (i = .encEnd ∧ s.enc.eended = false) ∨ i = .encReset) ∧
    (t.dec.dfault ≠ s.dec.dfault →
      (s.dec.dfault = false ∧ ∃ n, t.responses =
        s.responses ++ [⟨.dec, .capacityExceeded, .bodyLength n⟩]) ∨ i = .decReset)

/-! ### Invariants -/

/-- The machine's invariant holds at reset. -/
def Obligations.ResetMeetsTheInvariant : Prop := State.reset.Inv

/-- R40, R90, R100, R173, R116: every step keeps the invariant, whatever the host delivers. -/
def Obligations.EveryStepKeepsTheInvariant : Prop :=
  ∀ s t : State, s.Inv → step s = .next t → t.Inv

/-- R51, R93 and R121: from a state of the invariant a wire byte, and every token, wire row and
construction that decodes, takes a step; no index leaves its array. A step faults only when a selector
word stands raw at the input (log entry 6).
That the micro-operation and wire rows are operations of the decoder is the model's reading (log
entries 6 and 7). -/
def Obligations.InvariantStatesTakeEveryToken : Prop :=
  ∀ s : State, s.Inv →
    (∀ b rest, s.input = .byte b :: rest → ∃ t, step s = .next t) ∧
    (∀ p i rest, s.input = .word p :: rest → decode p = .ok i →
      (decoderOperation i = true ∧ microOperationTag i = none ∨ encoderOperation i = true ∨
        i = .decReset ∨ i = .encReset) → ∃ t, step s = .next t) ∧
    (∀ r, step s = .fault r → ∃ w rest, s.input = .word (.uop w) :: rest) ∧
    step s ≠ .fault .indexOutOfRange

/-! ### Headline results -/

/-- R118: two cuttings of the same bytes leave the decoder, with its output, in the same state. -/
def Obligations.ChunkBoundariesDoNotMatter : Prop :=
  ∀ (s : State) (cut cut' : List Bytes), s.dec.Inv s.params.bodyCapacity →
    cut.flatten = cut'.flatten →
    ∃ t t' : State, runOps (cut.map .decFeed) s = .next t ∧
      runOps (cut'.map .decFeed) s = .next t' ∧ t.dec = t'.dec ∧ t.enc = t'.enc ∧
      (s.dec.Ready →
        ((∃ r ∈ t.responses.drop s.responses.length, r.status = .capacityExceeded) ↔
          ∃ r ∈ t'.responses.drop s.responses.length, r.status = .capacityExceeded))

/-- R119 and R77: from AWAIT_FLAGS the decoder emits exactly the frame that parseFrame reads, on its
last byte, and goes on with the rest; bytes that hold no whole frame emit nothing. -/
def Obligations.DecoderEmitsWhatParseFrameReads : Prop :=
  ∀ (s : State) (bytes : Bytes), s.dec.Ready → s.dec.dstate = .awaitFlags → s.dec.PhaseInv →
    2 ^ 32 - 1 ≤ s.params.bodyCapacity →
    (∀ r rest, parseFrame bytes = some (r, rest) →
      exec (.decFeed bytes) s =
        exec (.decFeed rest) { s with
          dec := { s.dec with dout := s.dec.dout ++ [.frame r] } }) ∧
    (parseFrame bytes = none →
      ∃ t, exec (.decFeed bytes) s = .next t ∧ t.dec.dout = s.dec.dout ∧
        t.responses = s.responses ++ [⟨.dec, .ok, .nothing⟩])

/-- R150: what the encoder outputs for a record shorter than 2^32 bytes, fed to the decoder in any
chunks, comes out as exactly one record, with the resolved fields and the body's bytes, and the
decoder is back where it was. -/
def Obligations.EncodedFrameRoundTrips : Prop :=
  ∀ (s t : State) (f : FrameIn) (bytes : Bytes) (cut : List Bytes) (evs : List EncEvent),
    s.enc.eended = false → s.dec.Ready → s.dec.dstate = .awaitFlags → s.dec.PhaseInv →
    (f.body = .text bytes ∨ f.body = .binary bytes) → bytes.length < 2 ^ 32 →
    bytes.length ≤ s.params.bodyCapacity →
    exec (.encFrame f) s = .next t →
    t.responses = s.responses ++ [⟨.enc, .ok, .nothing⟩] →
    t.enc.eout = s.enc.eout ++ evs → cut.flatten = chunkBytes evs →
    ∃ (u : State) (op : BitVec 4), runOps (cut.map .decFeed) t = .next u ∧
      (f.opcode = .absent ∧ op = (if f.body = .text bytes then 1 else 2) ∨
        ∃ n : Int, f.opcode = .num n ∧ (op.toNat : Int) = n % 16) ∧
      u.dec = { s.dec with
        dout := s.dec.dout ++
          [.frame ⟨f.fin.getD true, op, f.mask.getD false,
            if op = 1 then .text else .binary, bytes⟩] }
end

