-- ==== Sys2Proof/Laws/Bytes.lean ====
section
/-! SUPPORT. The bit fields of header bytes and selector words, big-endian lengths, and cyclic
masking. -/

namespace Sys2Proof

@[simp] theorem bit7_hdr0Byte (f : Bool) (r : BitVec 3) (o : BitVec 4) :
    bit7 (hdr0Byte f r o) = f := by
  revert f r o; decide

@[simp] theorem bits6to4_hdr0Byte (f : Bool) (r : BitVec 3) (o : BitVec 4) :
    bits6to4 (hdr0Byte f r o) = r := by
  revert f r o; decide

@[simp] theorem bits3to0_hdr0Byte (f : Bool) (r : BitVec 3) (o : BitVec 4) :
    bits3to0 (hdr0Byte f r o) = o := by
  revert f r o; decide

@[simp] theorem bit7_hdr1Byte (m : Bool) (l : BitVec 7) : bit7 (hdr1Byte m l) = m := by
  revert m l; decide

@[simp] theorem bits6to0_hdr1Byte (m : Bool) (l : BitVec 7) : bits6to0 (hdr1Byte m l) = l := by
  revert m l; decide

/-- Header byte 0 is made of its three fields (R71). -/
theorem hdr0Byte_fields (b : Byte) : hdr0Byte (bit7 b) (bits6to4 b) (bits3to0 b) = b := by
  revert b; decide

/-- Header byte 1 is made of its two fields (R72). -/
theorem hdr1Byte_fields (b : Byte) : hdr1Byte (bit7 b) (bits6to0 b) = b := by
  revert b; decide

@[simp] theorem selectorTag_selectorWord (t : BitVec 3) (b : Byte) :
    selectorTag (selectorWord t b) = t := by
  ext i hi
  have h : 8 + i < 11 := by omega
  simp [selectorTag, selectorWord, BitVec.getElem_extractLsb', hi, h]

@[simp] theorem selectorByte_selectorWord (t : BitVec 3) (b : Byte) :
    selectorByte (selectorWord t b) = b := by
  ext i hi
  simp [selectorByte, selectorWord, BitVec.getElem_extractLsb', hi]
  omega

@[simp] theorem be2_length (v : Nat) : (be2 v).length = 2 := rfl
@[simp] theorem be4_length (v : Nat) : (be4 v).length = 4 := rfl
@[simp] theorem be8_length (v : Nat) : (be8 v).length = 8 := rfl

end Sys2Proof

namespace Sys2Proof.Machine

@[simp] theorem Tag.ofCode_code (t : Tag) : Tag.ofCode t.code = t := by cases t <;> rfl

@[simp] theorem Tag.code_ofCode (c : BitVec 3) : (Tag.ofCode c).code = c := by
  revert c; decide

@[simp] theorem maskFrom_length (k : Key) (i : Nat) (bs : Bytes) :
    (maskFrom k i bs).length = bs.length := by
  induction bs generalizing i with
  | nil => rfl
  | cons b bs ih => simp [maskFrom, ih]

/-- Masking is by position (R54). -/
theorem maskFrom_getElem? (k : Key) (i j : Nat) (bs : Bytes) :
    (maskFrom k i bs)[j]? = (bs[j]?).map (· ^^^ k.cyclic (i + j)) := by
  induction bs generalizing i j with
  | nil => simp [maskFrom]
  | cons b bs ih =>
    cases j with
    | zero => simp [maskFrom]
    | succ j => simp [maskFrom, ih, Nat.add_assoc, Nat.add_comm 1 j]

@[simp] theorem wirePayload_length (key : Option Key) (bs : Bytes) :
    (wirePayload key bs).length = bs.length := by
  cases key <;> simp [wirePayload]

end Sys2Proof.Machine
end

