-- ==== Sys2Proof/Laws/State.lean ====
section
/-! SUPPORT. What each named update leaves in each field of the state, one lemma a field. -/

namespace Sys2Proof.Machine

/-! ### Dec.takeHdr0 -/

@[simp] theorem Dec.takeHdr0_dstate (d : Dec) (b : Byte) : (d.takeHdr0 b).dstate = d.dstate := rfl
@[simp] theorem Dec.takeHdr0_cursor (d : Dec) (b : Byte) : (d.takeHdr0 b).cursor = d.cursor := rfl
@[simp] theorem Dec.takeHdr0_fin (d : Dec) (b : Byte) : (d.takeHdr0 b).fin = bit7 b := rfl
@[simp] theorem Dec.takeHdr0_opcode (d : Dec) (b : Byte) : (d.takeHdr0 b).opcode = bits3to0 b := rfl
@[simp] theorem Dec.takeHdr0_mask (d : Dec) (b : Byte) : (d.takeHdr0 b).mask = d.mask := rfl
@[simp] theorem Dec.takeHdr0_length (d : Dec) (b : Byte) : (d.takeHdr0 b).length = d.length := rfl
@[simp] theorem Dec.takeHdr0_key (d : Dec) (b : Byte) : (d.takeHdr0 b).key = d.key := rfl
@[simp] theorem Dec.takeHdr0_body (d : Dec) (b : Byte) : (d.takeHdr0 b).body = d.body := rfl
@[simp] theorem Dec.takeHdr0_ended (d : Dec) (b : Byte) : (d.takeHdr0 b).ended = d.ended := rfl
@[simp] theorem Dec.takeHdr0_dfault (d : Dec) (b : Byte) : (d.takeHdr0 b).dfault = d.dfault := rfl
@[simp] theorem Dec.takeHdr0_dout (d : Dec) (b : Byte) : (d.takeHdr0 b).dout = d.dout := rfl

/-! ### Dec.takeMask -/

@[simp] theorem Dec.takeMask_dstate (d : Dec) (m : Bool) : (d.takeMask m).dstate = d.dstate := rfl
@[simp] theorem Dec.takeMask_cursor (d : Dec) (m : Bool) : (d.takeMask m).cursor = d.cursor := rfl
@[simp] theorem Dec.takeMask_fin (d : Dec) (m : Bool) : (d.takeMask m).fin = d.fin := rfl
@[simp] theorem Dec.takeMask_opcode (d : Dec) (m : Bool) : (d.takeMask m).opcode = d.opcode := rfl
@[simp] theorem Dec.takeMask_mask (d : Dec) (m : Bool) : (d.takeMask m).mask = m := rfl
@[simp] theorem Dec.takeMask_length (d : Dec) (m : Bool) : (d.takeMask m).length = d.length := rfl
@[simp] theorem Dec.takeMask_key (d : Dec) (m : Bool) : (d.takeMask m).key = d.key := rfl
@[simp] theorem Dec.takeMask_body (d : Dec) (m : Bool) : (d.takeMask m).body = d.body := rfl
@[simp] theorem Dec.takeMask_ended (d : Dec) (m : Bool) : (d.takeMask m).ended = d.ended := rfl
@[simp] theorem Dec.takeMask_dfault (d : Dec) (m : Bool) : (d.takeMask m).dfault = d.dfault := rfl
@[simp] theorem Dec.takeMask_dout (d : Dec) (m : Bool) : (d.takeMask m).dout = d.dout := rfl

/-! ### Dec.setEnded -/

@[simp] theorem Dec.setEnded_dstate (d : Dec) : (d.setEnded).dstate = d.dstate := rfl
@[simp] theorem Dec.setEnded_cursor (d : Dec) : (d.setEnded).cursor = d.cursor := rfl
@[simp] theorem Dec.setEnded_fin (d : Dec) : (d.setEnded).fin = d.fin := rfl
@[simp] theorem Dec.setEnded_opcode (d : Dec) : (d.setEnded).opcode = d.opcode := rfl
@[simp] theorem Dec.setEnded_mask (d : Dec) : (d.setEnded).mask = d.mask := rfl
@[simp] theorem Dec.setEnded_length (d : Dec) : (d.setEnded).length = d.length := rfl
@[simp] theorem Dec.setEnded_key (d : Dec) : (d.setEnded).key = d.key := rfl
@[simp] theorem Dec.setEnded_body (d : Dec) : (d.setEnded).body = d.body := rfl
@[simp] theorem Dec.setEnded_ended (d : Dec) : (d.setEnded).ended = true := rfl
@[simp] theorem Dec.setEnded_dfault (d : Dec) : (d.setEnded).dfault = d.dfault := rfl
@[simp] theorem Dec.setEnded_dout (d : Dec) : (d.setEnded).dout = d.dout := rfl

/-! ### Dec.setFault -/

@[simp] theorem Dec.setFault_dstate (d : Dec) : (d.setFault).dstate = d.dstate := rfl
@[simp] theorem Dec.setFault_cursor (d : Dec) : (d.setFault).cursor = d.cursor := rfl
@[simp] theorem Dec.setFault_fin (d : Dec) : (d.setFault).fin = d.fin := rfl
@[simp] theorem Dec.setFault_opcode (d : Dec) : (d.setFault).opcode = d.opcode := rfl
@[simp] theorem Dec.setFault_mask (d : Dec) : (d.setFault).mask = d.mask := rfl
@[simp] theorem Dec.setFault_length (d : Dec) : (d.setFault).length = d.length := rfl
@[simp] theorem Dec.setFault_key (d : Dec) : (d.setFault).key = d.key := rfl
@[simp] theorem Dec.setFault_body (d : Dec) : (d.setFault).body = d.body := rfl
@[simp] theorem Dec.setFault_ended (d : Dec) : (d.setFault).ended = d.ended := rfl
@[simp] theorem Dec.setFault_dfault (d : Dec) : (d.setFault).dfault = true := rfl
@[simp] theorem Dec.setFault_dout (d : Dec) : (d.setFault).dout = d.dout := rfl

/-! ### Dec.sessionReset -/

@[simp] theorem Dec.sessionReset_dstate (d : Dec) : (d.sessionReset).dstate = .awaitFlags := rfl
@[simp] theorem Dec.sessionReset_cursor (d : Dec) : (d.sessionReset).cursor = 0 := rfl
@[simp] theorem Dec.sessionReset_fin (d : Dec) : (d.sessionReset).fin = false := rfl
@[simp] theorem Dec.sessionReset_opcode (d : Dec) : (d.sessionReset).opcode = 0 := rfl
@[simp] theorem Dec.sessionReset_mask (d : Dec) : (d.sessionReset).mask = false := rfl
@[simp] theorem Dec.sessionReset_length (d : Dec) : (d.sessionReset).length = 0 := rfl
@[simp] theorem Dec.sessionReset_key (d : Dec) : (d.sessionReset).key = ⟨0, 0, 0, 0⟩ := rfl
@[simp] theorem Dec.sessionReset_body (d : Dec) : (d.sessionReset).body = [] := rfl
@[simp] theorem Dec.sessionReset_ended (d : Dec) : (d.sessionReset).ended = d.ended := rfl
@[simp] theorem Dec.sessionReset_dfault (d : Dec) : (d.sessionReset).dfault = d.dfault := rfl
@[simp] theorem Dec.sessionReset_dout (d : Dec) : (d.sessionReset).dout = d.dout := rfl

/-! ### Dec.push -/

@[simp] theorem Dec.push_dstate (d : Dec) (ev : DecEvent) : (d.push ev).dstate = d.dstate := rfl
@[simp] theorem Dec.push_cursor (d : Dec) (ev : DecEvent) : (d.push ev).cursor = d.cursor := rfl
@[simp] theorem Dec.push_fin (d : Dec) (ev : DecEvent) : (d.push ev).fin = d.fin := rfl
@[simp] theorem Dec.push_opcode (d : Dec) (ev : DecEvent) : (d.push ev).opcode = d.opcode := rfl
@[simp] theorem Dec.push_mask (d : Dec) (ev : DecEvent) : (d.push ev).mask = d.mask := rfl
@[simp] theorem Dec.push_length (d : Dec) (ev : DecEvent) : (d.push ev).length = d.length := rfl
@[simp] theorem Dec.push_key (d : Dec) (ev : DecEvent) : (d.push ev).key = d.key := rfl
@[simp] theorem Dec.push_body (d : Dec) (ev : DecEvent) : (d.push ev).body = d.body := rfl
@[simp] theorem Dec.push_ended (d : Dec) (ev : DecEvent) : (d.push ev).ended = d.ended := rfl
@[simp] theorem Dec.push_dfault (d : Dec) (ev : DecEvent) : (d.push ev).dfault = d.dfault := rfl
@[simp] theorem Dec.push_dout (d : Dec) (ev : DecEvent) : (d.push ev).dout = d.dout ++ [ev] := rfl

/-! ### Dec.emit -/

@[simp] theorem Dec.emit_dstate (d : Dec) : (d.emit).dstate = .awaitFlags := rfl
@[simp] theorem Dec.emit_cursor (d : Dec) : (d.emit).cursor = 0 := rfl
@[simp] theorem Dec.emit_fin (d : Dec) : (d.emit).fin = false := rfl
@[simp] theorem Dec.emit_opcode (d : Dec) : (d.emit).opcode = 0 := rfl
@[simp] theorem Dec.emit_mask (d : Dec) : (d.emit).mask = false := rfl
@[simp] theorem Dec.emit_length (d : Dec) : (d.emit).length = 0 := rfl
@[simp] theorem Dec.emit_key (d : Dec) : (d.emit).key = ⟨0, 0, 0, 0⟩ := rfl
@[simp] theorem Dec.emit_body (d : Dec) : (d.emit).body = [] := rfl
@[simp] theorem Dec.emit_ended (d : Dec) : (d.emit).ended = d.ended := rfl
@[simp] theorem Dec.emit_dfault (d : Dec) : (d.emit).dfault = d.dfault := rfl
@[simp] theorem Dec.emit_dout (d : Dec) : (d.emit).dout = d.dout ++ [.frame d.record] := rfl

/-! ### Enc -/

@[simp] theorem Enc.push_eended (e : Enc) (evs : List EncEvent) : (e.push evs).eended = e.eended := rfl
@[simp] theorem Enc.push_eout (e : Enc) (evs : List EncEvent) : (e.push evs).eout = e.eout ++ evs := rfl
@[simp] theorem Enc.setEnded_eended (e : Enc) : e.setEnded.eended = true := rfl
@[simp] theorem Enc.setEnded_eout (e : Enc) : e.setEnded.eout = e.eout := rfl

/-! ### State.setDec -/

@[simp] theorem State.setDec_dec (s : State) (d : Dec) : (s.setDec d).dec = d := rfl
@[simp] theorem State.setDec_enc (s : State) (d : Dec) : (s.setDec d).enc = s.enc := rfl
@[simp] theorem State.setDec_params (s : State) (d : Dec) : (s.setDec d).params = s.params := rfl
@[simp] theorem State.setDec_input (s : State) (d : Dec) : (s.setDec d).input = s.input := rfl
@[simp] theorem State.setDec_responses (s : State) (d : Dec) : (s.setDec d).responses = s.responses := rfl

/-! ### State.setEnc -/

@[simp] theorem State.setEnc_dec (s : State) (e : Enc) : (s.setEnc e).dec = s.dec := rfl
@[simp] theorem State.setEnc_enc (s : State) (e : Enc) : (s.setEnc e).enc = e := rfl
@[simp] theorem State.setEnc_params (s : State) (e : Enc) : (s.setEnc e).params = s.params := rfl
@[simp] theorem State.setEnc_input (s : State) (e : Enc) : (s.setEnc e).input = s.input := rfl
@[simp] theorem State.setEnc_responses (s : State) (e : Enc) : (s.setEnc e).responses = s.responses := rfl

/-! ### State.respond -/

@[simp] theorem State.respond_dec (s : State) (p : Port) (st : Status) (info : Info) : (s.respond p st info).dec = s.dec := rfl
@[simp] theorem State.respond_enc (s : State) (p : Port) (st : Status) (info : Info) : (s.respond p st info).enc = s.enc := rfl
@[simp] theorem State.respond_params (s : State) (p : Port) (st : Status) (info : Info) : (s.respond p st info).params = s.params := rfl
@[simp] theorem State.respond_input (s : State) (p : Port) (st : Status) (info : Info) : (s.respond p st info).input = s.input := rfl
@[simp] theorem State.respond_responses (s : State) (p : Port) (st : Status) (info : Info) : (s.respond p st info).responses = s.responses ++ [⟨p, st, info⟩] := rfl

/-! ### State.advance -/

@[simp] theorem State.advance_dec (s : State) : (s.advance).dec = s.dec := rfl
@[simp] theorem State.advance_enc (s : State) : (s.advance).enc = s.enc := rfl
@[simp] theorem State.advance_params (s : State) : (s.advance).params = s.params := rfl
@[simp] theorem State.advance_input (s : State) : (s.advance).input = s.input.tail := rfl
@[simp] theorem State.advance_responses (s : State) : (s.advance).responses = s.responses := rfl

end Sys2Proof.Machine
end

