-- ==== Sys2Proof/Laws/Ops.lean ====
section
/-! SUPPORT. What each shared operation can do, once: the provers cite these lemmas instead of
unfolding the operations. -/

namespace Sys2Proof.Machine

/-! ### BODY, KEY -/

theorem putBody_of_lt {body : Bytes} {i : Nat} (b : Byte) (h : i < body.length) :
    putBody body i b = some (body.set i b) := by
  simp [putBody, h]

theorem putBody_eq_some {body body' : Bytes} {i : Nat} {b : Byte} :
    putBody body i b = some body' ↔ i < body.length ∧ body' = body.set i b := by
  unfold putBody
  split <;> simp_all [eq_comm]

/-- The one operation that writes a cell of BODY keeps its size (R29). -/
theorem putBody_length {body body' : Bytes} {i : Nat} {b : Byte} (h : putBody body i b = some body') :
    body'.length = body.length := by
  obtain ⟨-, rfl⟩ := putBody_eq_some.mp h
  simp

theorem keyPut_isSome (k : Key) {i : Nat} (b : Byte) (h : i ≤ 3) : ∃ k', k.put i b = some k' := by
  match i, h with
  | 0, _ => exact ⟨_, rfl⟩
  | 1, _ => exact ⟨_, rfl⟩
  | 2, _ => exact ⟨_, rfl⟩
  | 3, _ => exact ⟨_, rfl⟩

/-! ### Allocation and the transition out of the length phase -/

theorem Dec.allocate_of_le {cap : Nat} {d : Dec} (h : d.length.toNat ≤ cap) :
    d.allocate cap = .done { d with body := List.replicate d.length.toNat 0 } := by
  simp [Dec.allocate, Nat.not_lt.mpr h]

theorem Dec.allocate_of_gt {cap : Nat} {d : Dec} (h : cap < d.length.toNat) :
    d.allocate cap = .raised d.setFault .capacityExceeded (.bodyLength d.length.toNat) := by
  simp [Dec.allocate, h]

theorem Dec.enterPayload_of_le {cap : Nat} {d : Dec} (h : d.length.toNat ≤ cap) :
    d.enterPayload cap =
      .done { d with body := List.replicate d.length.toNat 0 }.openPayload := by
  simp [Dec.enterPayload, Dec.allocate_of_le h]

theorem Dec.enterPayload_of_gt {cap : Nat} {d : Dec} (h : cap < d.length.toNat) :
    d.enterPayload cap =
      .raised d.setFault .capacityExceeded (.bodyLength d.length.toNat) := by
  simp [Dec.enterPayload, Dec.allocate_of_gt h]

/-- After the allocation: the key phase, emission at once, or the body phase (R105). -/
theorem Dec.openPayload_cases (d : Dec) :
    (d.mask = true ∧ d.openPayload = { d with cursor := 0, dstate := .awaitKey }) ∨
    (d.mask = false ∧ d.length = 0 ∧
      d.openPayload = { d with cursor := 0, dstate := .awaitBody }.emit) ∨
    (d.mask = false ∧ d.length ≠ 0 ∧
      d.openPayload = { d with cursor := 0, dstate := .awaitBody }) := by
  unfold Dec.openPayload
  cases hm : d.mask <;> by_cases hl : d.length = 0 <;> simp_all

/-! ### Operations of the units -/

/-- A decoder that takes tokens runs the operation and returns its status (R100). -/
theorem State.decOp_of_ready {s : State} (op : Dec → Micro) (h : s.dec.Ready) :
    s.decOp op =
      match op s.dec with
      | .done d => .next ((s.setDec d).respond .dec .ok .nothing)
      | .raised d st info => .next ((s.setDec d).respond .dec st info)
      | .stopped r => .fault r := by
  obtain ⟨h1, h2, h3⟩ := h
  simp only [State.decOp, h1, h2, h3, State.raise]
  rfl

/-- What a decoder operation can answer (R100, R176). -/
theorem State.decOp_cases {s t : State} {op : Dec → Micro} (h : s.decOp op = .next t) :
    (s.dec.dfault = true ∧ t = s.respond .dec .capacityExceeded .nothing) ∨
    (s.dec.dfault = false ∧ s.dec.ended = true ∧ t = s.respond .dec .afterEnd .nothing) ∨
    (s.dec.Ready ∧ ∃ d, op s.dec = .done d ∧ t = (s.setDec d).respond .dec .ok .nothing) ∨
    (s.dec.Ready ∧ ∃ d st info, op s.dec = .raised d st info ∧
      t = (s.setDec d).respond .dec st info) := by
  unfold State.decOp State.raise at h
  split at h
  · cases h
  split at h
  · cases h; exact .inl ⟨‹_›, rfl⟩
  split at h
  · cases h; exact .inr (.inl ⟨by simpa using ‹¬s.dec.dfault = true›, ‹_›, rfl⟩)
  have hr : s.dec.Ready := ⟨by simp_all, by simp_all, by simp_all⟩
  split at h
  · cases h; exact .inr (.inr (.inl ⟨hr, _, ‹_›, rfl⟩))
  · cases h; exact .inr (.inr (.inr ⟨hr, _, _, _, ‹_›, rfl⟩))
  · cases h

/-- What an encoder operation can answer (R140). -/
theorem State.encOp_cases {s t : State} {op : Enc → Except (Status × Info) Enc}
    (h : s.encOp op = .next t) :
    (s.enc.eended = true ∧ t = s.respond .enc .afterEnd .nothing) ∨
    (s.enc.eended = false ∧ ∃ e, op s.enc = .ok e ∧
      t = (s.setEnc e).respond .enc .ok .nothing) ∨
    (s.enc.eended = false ∧ ∃ st info, op s.enc = .error (st, info) ∧
      t = s.respond .enc st info) := by
  unfold State.encOp State.raise at h
  split at h
  · cases h; exact .inl ⟨‹_›, rfl⟩
  have he : s.enc.eended = false := by simpa using ‹¬s.enc.eended = true›
  split at h
  · cases h; exact .inr (.inl ⟨he, _, ‹_›, rfl⟩)
  · cases h; exact .inr (.inr ⟨he, _, _, ‹_›, rfl⟩)

/-- An encoder operation always answers a next state. -/
theorem State.encOp_next (s : State) (op : Enc → Except (Status × Info) Enc) :
    ∃ t, s.encOp op = .next t := by
  unfold State.encOp State.raise
  split
  · exact ⟨_, rfl⟩
  · split <;> exact ⟨_, rfl⟩

/-- Each decoder operation is `decOp` of some operation that reads only the decoder and the capacity
(R62). -/
theorem exec_decoderOperation {i : Instr} (h : decoderOperation i = true) :
    ∃ op : Nat → Dec → Micro, ∀ s, exec i s = s.decOp (op s.params.bodyCapacity) := by
  cases i <;> first
    | exact ⟨fun cap => feedBytes cap _, fun _ => rfl⟩
    | exact ⟨fun cap => whenSelected _ (uLenShort cap _ _), fun _ => rfl⟩
    | exact ⟨fun cap => whenSelected _ (uExtLen cap _), fun _ => rfl⟩
    | exact ⟨fun cap => whenSelected _ (uKey cap _), fun _ => rfl⟩
    | exact ⟨fun _ => whenSelected _ (uFlags _), fun _ => rfl⟩
    | exact ⟨fun _ => whenSelected _ (uLenExt16 _), fun _ => rfl⟩
    | exact ⟨fun _ => whenSelected _ (uLenExt64 _), fun _ => rfl⟩
    | exact ⟨fun _ => whenSelected _ (uBody _), fun _ => rfl⟩
    | exact ⟨fun _ => whenSelected _ (uMaskedBody _), fun _ => rfl⟩
    | exact ⟨fun _ d => .done (d.push .sentinel).setEnded, fun _ => rfl⟩
    | exact ⟨fun _ d => .raised d .invalidInput .token, fun _ => rfl⟩
    | exact absurd h Bool.false_ne_true

/-! ### The dispatch of one byte, state by state (R104) -/

theorem byteStep_awaitFlags (cap : Nat) (b : Byte) {d : Dec} (h : d.dstate = .awaitFlags) :
    byteStep cap b d = uFlags b d := by
  unfold byteStep; rw [h]

theorem byteStep_awaitLen (cap : Nat) (b : Byte) {d : Dec} (h : d.dstate = .awaitLen) :
    byteStep cap b d = uLen cap b d := by
  unfold byteStep; rw [h]

theorem byteStep_awaitExtLen (cap : Nat) (b : Byte) {d : Dec} (h : d.dstate = .awaitExtLen) :
    byteStep cap b d = uExtLen cap b d := by
  unfold byteStep; rw [h]

theorem byteStep_awaitKey (cap : Nat) (b : Byte) {d : Dec} (h : d.dstate = .awaitKey) :
    byteStep cap b d = uKey cap b d := by
  unfold byteStep; rw [h]

theorem byteStep_awaitBody (cap : Nat) (b : Byte) {d : Dec} (h : d.dstate = .awaitBody) :
    byteStep cap b d = uBody b d := by
  unfold byteStep; rw [h]

theorem byteStep_awaitMaskedBody (cap : Nat) (b : Byte) {d : Dec} (h : d.dstate = .awaitMaskedBody) :
    byteStep cap b d = uMaskedBody b d := by
  unfold byteStep; rw [h]

/-! ### The fold over a chunk -/

/-- Feeding two pieces in one chunk is feeding the second from where the first ends (R102, R118). -/
theorem feedBytes_append (cap : Nat) (xs ys : Bytes) (d : Dec) :
    feedBytes cap (xs ++ ys) d =
      match feedBytes cap xs d with
      | .done d' => feedBytes cap ys d'
      | .raised d' st info => .raised d' st info
      | .stopped r => .stopped r := by
  induction xs generalizing d with
  | nil => rfl
  | cons b xs ih =>
    simp only [List.cons_append, feedBytes]
    split
    · exact ih _
    · rfl
    · rfl

@[simp] theorem feedBytes_singleton (cap : Nat) (b : Byte) (d : Dec) :
    feedBytes cap [b] d = byteStep cap b d := by
  simp only [feedBytes]
  split <;> simp_all

end Sys2Proof.Machine
end

