-- ==== Sys2Proof/Laws/Decoder.lean ====
section
/-! SUPPORT. What one byte can do to the decoder, in every state (R104 to R115), and that it keeps the
table of R40. Each micro-operation has its own lemma; the dispatch and the fold follow. -/

namespace Sys2Proof.Machine

/-! ### What a byte can do in any state -/

/-- What a micro-step may do: it never touches `ended`; it appends at most one Frame, tagged by its
opcode; the one error it raises is the capacity fault, which writes neither the output nor the frame
flags (R38, R106, R116). -/
def Micro.Keeps (cap : Nat) (d : Dec) : Micro → Prop
  | .done d' =>
    d'.ended = d.ended ∧ d'.dfault = d.dfault ∧ d'.dstate.isReserved = false ∧
      (d'.dout = d.dout ∨
        ∃ r, d'.dout = d.dout ++ [.frame r] ∧ r.kind = kindOf r.opcode)
  | .raised d' st info =>
    st = .capacityExceeded ∧ d'.dfault = true ∧ d'.ended = d.ended ∧ d'.dstate = d.dstate ∧
      d'.dout = d.dout ∧ d'.fin = d.fin ∧ d'.opcode = d.opcode ∧ d'.body = d.body ∧
      ∃ n, info = .bodyLength n ∧ cap < n
  | .stopped r => r = .indexOutOfRange ∨ r = .reservedTag

theorem enterPayload_keeps {cap : Nat} {d d0 : Dec} (h1 : d.ended = d0.ended)
    (h2 : d.dfault = d0.dfault) (h3 : d.dout = d0.dout) (h4 : d.dstate = d0.dstate)
    (h5 : d.fin = d0.fin) (h6 : d.opcode = d0.opcode) (h7 : d.body = d0.body) :
    (d.enterPayload cap).Keeps cap d0 := by
  rcases Nat.lt_or_ge cap d.length.toNat with h | h
  · rw [Dec.enterPayload_of_gt h]
    exact ⟨rfl, rfl, h1, h4, h3, h5, h6, h7, _, rfl, h⟩
  · rw [Dec.enterPayload_of_le h]
    generalize hd : ({ d with body := List.replicate d.length.toNat 0 } : Dec) = e
    have e1 : e.ended = d0.ended := by rw [← hd]; exact h1
    have e2 : e.dfault = d0.dfault := by rw [← hd]; exact h2
    have e3 : e.dout = d0.dout := by rw [← hd]; exact h3
    obtain ⟨-, he⟩ | ⟨-, -, he⟩ | ⟨-, -, he⟩ := e.openPayload_cases <;> rw [he]
    · exact ⟨e1, e2, rfl, .inl e3⟩
    · exact ⟨e1, e2, rfl, .inr ⟨_, by rw [← e3]; rfl, rfl⟩⟩
    · exact ⟨e1, e2, rfl, .inl e3⟩

theorem uFlags_keeps (cap : Nat) (b : Byte) (d : Dec) : (uFlags b d).Keeps cap d :=
  ⟨rfl, rfl, rfl, .inl rfl⟩

theorem uLen_keeps (cap : Nat) (b : Byte) (d : Dec) : (uLen cap b d).Keeps cap d := by
  unfold uLen
  split
  · exact enterPayload_keeps rfl rfl rfl rfl rfl rfl rfl
  · split <;> exact ⟨rfl, rfl, rfl, .inl rfl⟩

theorem uExtLen_keeps (cap : Nat) (b : Byte) (d : Dec) (h : d.dstate.isReserved = false) :
    (uExtLen cap b d).Keeps cap d := by
  unfold uExtLen
  split
  · exact enterPayload_keeps rfl rfl rfl rfl rfl rfl rfl
  · exact ⟨rfl, rfl, h, .inl rfl⟩

theorem closeKey_keeps {cap : Nat} {d d0 : Dec} (h1 : d.ended = d0.ended)
    (h2 : d.dfault = d0.dfault) (h3 : d.dout = d0.dout) (h4 : d.dstate = d0.dstate)
    (h5 : d.fin = d0.fin) (h6 : d.opcode = d0.opcode) (h7 : d.body = d0.body) :
    (d.closeKey cap).Keeps cap d0 := by
  unfold Dec.closeKey
  rcases Nat.lt_or_ge cap d.length.toNat with h | h
  · rw [Dec.allocate_of_gt (d := { d with cursor := 0 }) h]
    exact ⟨rfl, rfl, h1, h4, h3, h5, h6, h7, _, rfl, h⟩
  · rw [Dec.allocate_of_le (d := { d with cursor := 0 }) h]
    dsimp only
    split
    · exact ⟨h1, h2, rfl, .inr ⟨_, by rw [← h3]; rfl, rfl⟩⟩
    · exact ⟨h1, h2, rfl, .inl h3⟩

theorem uKey_keeps (cap : Nat) (b : Byte) (d : Dec) (h : d.dstate.isReserved = false) :
    (uKey cap b d).Keeps cap d := by
  unfold uKey
  split
  · exact .inl rfl
  · split
    · exact closeKey_keeps rfl rfl rfl rfl rfl rfl rfl
    · exact ⟨rfl, rfl, h, .inl rfl⟩

theorem storeBody_keeps (cap : Nat) (b : Byte) (d : Dec) (h : d.dstate.isReserved = false) :
    (d.storeBody b).Keeps cap d := by
  unfold Dec.storeBody
  split
  · exact .inl rfl
  · split
    · exact ⟨rfl, rfl, rfl, .inr ⟨_, rfl, rfl⟩⟩
    · exact ⟨rfl, rfl, h, .inl rfl⟩

/-- One byte, in any state (R104). -/
theorem byteStep_keeps (cap : Nat) (b : Byte) (d : Dec) : (byteStep cap b d).Keeps cap d := by
  unfold byteStep
  split <;> rename_i h
  · exact uFlags_keeps cap b d
  · exact uLen_keeps cap b d
  · exact uExtLen_keeps cap b d (by rw [h]; rfl)
  · exact uKey_keeps cap b d (by rw [h]; rfl)
  · exact storeBody_keeps cap b d (by rw [h]; rfl)
  · exact storeBody_keeps cap _ d (by rw [h]; rfl)
  · exact .inr rfl
  · exact .inr rfl

/-! ### The table of R40 -/

/-- What a micro-step leaves of R40: it completes in a state of the table, or raises the capacity
fault; a frame it appends is a proper record. It never stops. -/
def Micro.InvKept (cap : Nat) (d : Dec) : Micro → Prop
  | .done d' =>
    d'.PhaseInv ∧ d'.body.length ≤ cap ∧
      (d'.dout = d.dout ∨ ∃ r, d'.dout = d.dout ++ [.frame r] ∧ r.Proper cap)
  | .raised d' _ _ => d'.body.length ≤ cap
  | .stopped _ => False

theorem kindOf_eq_text (o : BitVec 4) : kindOf o = .text ↔ o = 1 := by
  unfold kindOf
  split <;> simp_all

theorem sessionReset_phase (d : Dec) : d.sessionReset.PhaseInv :=
  ⟨rfl, rfl, rfl, rfl, rfl, rfl, rfl⟩

theorem emit_phase (d : Dec) : d.emit.PhaseInv := ⟨rfl, rfl, rfl, rfl, rfl, rfl, rfl⟩

theorem record_proper {cap : Nat} {d : Dec} (h1 : d.body.length ≤ cap)
    (h2 : d.body.length < 2 ^ 32) : d.record.Proper cap :=
  ⟨kindOf_eq_text d.opcode, h1, h2⟩

theorem enterPayload_inv {cap : Nat} {d d0 : Dec} (hl : d.length.toNat < 2 ^ 32)
    (hb : d.body.length ≤ cap) (ho : d.dout = d0.dout) : (d.enterPayload cap).InvKept cap d0 := by
  rcases Nat.lt_or_ge cap d.length.toNat with h | h
  · rw [Dec.enterPayload_of_gt h]; exact hb
  · rw [Dec.enterPayload_of_le h]
    obtain ⟨hm, he⟩ | ⟨hm, h0, he⟩ | ⟨hm, h0, he⟩ :=
      Dec.openPayload_cases { d with body := List.replicate d.length.toNat 0 } <;> rw [he]
    · exact ⟨⟨hm, by simp, hl, by simp⟩, by simpa using h, .inl ho⟩
    · refine ⟨emit_phase _, Nat.zero_le _, .inr ⟨_, by rw [← ho]; rfl, ?_⟩⟩
      exact record_proper (by simpa using h) (by simpa using hl)
    · refine ⟨⟨hm, ?_, hl, by simp⟩, by simpa using h, .inl ho⟩
      have : d.length.toNat ≠ 0 := fun h => h0 (BitVec.eq_of_toNat_eq h)
      simpa using Nat.pos_of_ne_zero this

theorem uFlags_inv {cap : Nat} (b : Byte) {d : Dec} (hs : d.dstate = .awaitFlags)
    (hi : d.PhaseInv) : (uFlags b d).InvKept cap d := by
  simp only [Dec.PhaseInv, hs] at hi
  obtain ⟨h1, -, -, h4, h5, h6, h7⟩ := hi
  exact ⟨⟨h1, h4, h5, h6, h7⟩, by simp [h6], .inl rfl⟩

theorem uLen_inv {cap : Nat} (b : Byte) {d : Dec} (hs : d.dstate = .awaitLen)
    (hi : d.PhaseInv) : (uLen cap b d).InvKept cap d := by
  simp only [Dec.PhaseInv, hs] at hi
  obtain ⟨-, -, -, h6, -⟩ := hi
  unfold uLen
  split
  · exact enterPayload_inv (d := { d.takeMask _ with length := _ })
      (by simp; omega) (by simp [h6]) rfl
  · split <;> exact ⟨⟨by simp, by simp, h6, by simp⟩, by simp [h6], .inl rfl⟩

theorem trunc32_toNat (v : BitVec 64) : (trunc32 v).toNat = v.toNat % 2 ^ 32 := by
  simp [trunc32]; omega

theorem uExtLen_inv {cap : Nat} (b : Byte) {d : Dec} (hs : d.dstate = .awaitExtLen)
    (hi : d.PhaseInv) : (uExtLen cap b d).InvKept cap d := by
  simp only [Dec.PhaseInv, hs] at hi
  obtain ⟨h1, h2, h3, h4⟩ := hi
  unfold uExtLen
  split
  · exact enterPayload_inv (d := { d with length := _ })
      (by rw [trunc32_toNat]; exact Nat.mod_lt _ (by decide)) (by simp [h3]) rfl
  · rename_i h0
    have h0' : d.cursor.toNat ≠ 0 := fun h => h0 (BitVec.eq_of_toNat_eq h)
    have hc : (d.cursor - 8).toNat = d.cursor.toNat - 8 := by
      rw [BitVec.toNat_sub_of_le]
      · rfl
      · rw [BitVec.le_def]; simp; omega
    refine ⟨?_, by simp [h3], .inl rfl⟩
    simp only [Dec.PhaseInv, hs, hc]
    refine ⟨by omega, by omega, h3, fun i hi => ?_⟩
    have : i < d.cursor.toNat := by omega
    simp [orLength, h4 i (by omega), this]

theorem closeKey_inv {cap : Nat} {d d0 : Dec} (hm : d.mask = true)
    (hl : d.length.toNat < 2 ^ 32) (hc : d.length.toNat ≤ cap) (ho : d.dout = d0.dout) :
    (d.closeKey cap).InvKept cap d0 := by
  unfold Dec.closeKey
  rw [Dec.allocate_of_le (d := { d with cursor := 0 }) hc]
  dsimp only
  split
  · refine ⟨emit_phase _, Nat.zero_le _, .inr ⟨_, by rw [← ho]; rfl, ?_⟩⟩
    exact record_proper (by simpa using hc) (by simpa using hl)
  · rename_i h0
    refine ⟨⟨hm, ?_, hl, by simp⟩, by simpa using hc, .inl ho⟩
    have : d.length.toNat ≠ 0 := fun h => h0 (BitVec.eq_of_toNat_eq h)
    simpa using Nat.pos_of_ne_zero this

theorem uKey_inv {cap : Nat} (b : Byte) {d : Dec} (hs : d.dstate = .awaitKey)
    (hi : d.PhaseInv) (hb : d.body.length ≤ cap) : (uKey cap b d).InvKept cap d := by
  simp only [Dec.PhaseInv, hs] at hi
  obtain ⟨h1, h2, h3, h4⟩ := hi
  obtain ⟨k, hk⟩ := keyPut_isSome d.key b h2
  simp only [uKey, hk]
  split
  · exact closeKey_inv h1 h3 (by simpa [h4] using hb) rfl
  · rename_i h0
    have hc : (d.cursor + 1).toNat = d.cursor.toNat + 1 := by
      rw [BitVec.toNat_add]; simp; omega
    have : (d.cursor + 1).toNat ≠ 4 := fun h => h0 (BitVec.eq_of_toNat_eq h)
    refine ⟨?_, hb, .inl rfl⟩
    simp only [Dec.PhaseInv, hs]
    exact ⟨h1, by omega, h3, h4⟩

/-- Storing a payload byte, in either body state. -/
theorem storeBody_inv {cap : Nat} (b : Byte) {d : Dec}
    (hs : d.dstate = .awaitBody ∧ d.mask = false ∨ d.dstate = .awaitMaskedBody ∧ d.mask = true)
    (h2 : d.cursor.toNat < d.length.toNat) (h3 : d.length.toNat < 2 ^ 32)
    (h4 : d.body.length = d.length.toNat) (hb : d.body.length ≤ cap) :
    (d.storeBody b).InvKept cap d := by
  unfold Dec.storeBody
  rw [putBody_of_lt b (by omega : d.cursor.toNat < d.body.length)]
  have hc : (d.cursor + 1).toNat = d.cursor.toNat + 1 := by
    rw [BitVec.toNat_add]; simp; omega
  dsimp only
  split
  · refine ⟨emit_phase _, Nat.zero_le _, .inr ⟨_, rfl, ?_⟩⟩
    exact record_proper (by simpa using hb) (by simp; omega)
  · refine ⟨?_, by simpa using hb, .inl rfl⟩
    obtain ⟨hs, hm⟩ | ⟨hs, hm⟩ := hs <;> simp only [Dec.PhaseInv, hs] <;>
      exact ⟨hm, by omega, h3, by simpa using h4⟩

/-- One byte keeps R40, and in a state of R40 it is always taken (R51, R121). -/
theorem byteStep_inv {cap : Nat} (b : Byte) {d : Dec} (hi : d.PhaseInv)
    (hb : d.body.length ≤ cap) : (byteStep cap b d).InvKept cap d := by
  unfold byteStep
  split <;> rename_i hs
  · exact uFlags_inv b hs hi
  · exact uLen_inv b hs hi
  · exact uExtLen_inv b hs hi
  · exact uKey_inv b hs hi hb
  · simp only [Dec.PhaseInv, hs] at hi
    exact storeBody_inv _ (.inl ⟨hs, hi.1⟩) hi.2.1 hi.2.2.1 hi.2.2.2 hb
  · simp only [Dec.PhaseInv, hs] at hi
    exact storeBody_inv _ (.inr ⟨hs, hi.1⟩) hi.2.1 hi.2.2.1 hi.2.2.2 hb
  · simp [Dec.PhaseInv, hs] at hi
  · simp [Dec.PhaseInv, hs] at hi

end Sys2Proof.Machine
end

