-- ==== Sys2Proof/Laws/Encoder.lean ====
section
/-! SUPPORT. What the steps of one Encode can answer (R142 to R149), and what masking twice leaves. -/

namespace Sys2Proof.Machine

/-- A record that is serialized resolves in every field, and its chunks are R149's. -/
theorem encodeFrame_ok {supported : Bool} {f : FrameIn} {evs : List EncEvent}
    (h : encodeFrame supported f = .ok evs) :
    ∃ bytes isText op key, resolveBody f.body = .ok (bytes, isText) ∧
      resolveOpcode isText f.opcode = .ok op ∧
      resolveKey supported (resolveMask f.mask) f.key = .ok key ∧
      evs = frameChunks (resolveFin f.fin) op key bytes := by
  unfold encodeFrame at h
  split at h
  · cases h
  split at h
  · cases h
  split at h
  · cases h
  cases h
  exact ⟨_, _, _, _, ‹_›, ‹_›, ‹_›, rfl⟩

/-- The errors of Encode (R177). -/
theorem encodeFrame_error {supported : Bool} {f : FrameIn} {st : Status} {info : Info}
    (h : encodeFrame supported f = .error (st, info)) :
    st = .invalidInput ∧ (info = .body ∨ info = .opcode) ∨ st = .unsupported ∧ info = .nothing := by
  unfold encodeFrame at h
  split at h
  · rename_i hx
    cases h
    unfold resolveBody at hx
    split at hx <;> cases hx
    exact .inl ⟨rfl, .inl rfl⟩
  split at h
  · rename_i hx
    cases h
    unfold resolveOpcode at hx
    split at hx <;> cases hx
    exact .inl ⟨rfl, .inr rfl⟩
  split at h
  · rename_i hx
    cases h
    unfold resolveKey at hx
    repeat' split at hx
    all_goals cases hx
    all_goals exact .inr ⟨rfl, rfl⟩
  · cases h

/-- A key goes on the wire exactly when a mask was asked for (R146, R147). -/
theorem resolveKey_isSome {supported maskb : Bool} {key key' : Option Key}
    (h : resolveKey supported maskb key = .ok key') : key'.isSome = maskb := by
  unfold resolveKey at h
  repeat' split at h
  all_goals cases h
  all_goals simp_all

/-- Masking twice with the same key gives the bytes back (R76). -/
@[simp] theorem wirePayload_wirePayload (key : Option Key) (bs : Bytes) :
    wirePayload key (wirePayload key bs) = bs := by
  have twice : ∀ (k : Key) (i : Nat), maskFrom k i (maskFrom k i bs) = bs := by
    intro k
    induction bs with
    | nil => intro i; rfl
    | cons b bs ih => intro i; simp [maskFrom, ih]
  cases key with
  | none => rfl
  | some k => exact twice k 0

end Sys2Proof.Machine
end

