-- ==== Sys2Proof/Laws/Feed.lean ====
section
/-! SUPPORT. What a chunk can do to the decoder (R102): from a state of R40 it is always taken, it keeps
R40, and it only appends Frames. And what the multi-byte fields leave: the length bytes their
big-endian value (R111), the payload bytes the stored payload (R113, R114). -/

namespace Sys2Proof.Machine

/-! ### A whole chunk -/

/-- What a Feed may do to a decoder of R40: complete in such a state, or raise the capacity fault;
either way only Frames are appended. It never stops. -/
def Micro.FeedKept (cap : Nat) (d : Dec) : Micro → Prop
  | .done d' =>
    d'.PhaseInv ∧ d'.body.length ≤ cap ∧ d'.dstate.isReserved = false ∧ d'.dfault = d.dfault ∧
      d'.ended = d.ended ∧
      ∃ rs : List Frame, d'.dout = d.dout ++ rs.map .frame ∧ ∀ r ∈ rs, r.Proper cap
  | .raised d' st _ =>
    d'.body.length ≤ cap ∧ d'.dstate.isReserved = false ∧ d'.dfault = true ∧
      d'.ended = d.ended ∧ st = .capacityExceeded ∧
      ∃ rs : List Frame, d'.dout = d.dout ++ rs.map .frame ∧ ∀ r ∈ rs, r.Proper cap
  | .stopped _ => False

theorem byteStep_kept {cap : Nat} (b : Byte) {d : Dec} (hi : d.PhaseInv)
    (hb : d.body.length ≤ cap) (hr : d.dstate.isReserved = false) :
    (byteStep cap b d).FeedKept cap d := by
  have hk := byteStep_keeps cap b d
  have hv := byteStep_inv b hi hb
  revert hk hv
  generalize byteStep cap b d = m
  intro hk hv
  cases m with
  | done d' =>
    refine ⟨hv.1, hv.2.1, hk.2.2.1, hk.2.1, hk.1, ?_⟩
    obtain h | ⟨r, h, hp⟩ := hv.2.2
    · exact ⟨[], by simpa using h, by simp⟩
    · exact ⟨[r], by simpa using h, by simpa using hp⟩
  | raised d' st info =>
    obtain ⟨h1, h2, h3, h4, h5, -⟩ := hk
    exact ⟨hv, by rw [h4]; exact hr, h2, h3, h1, [], by simpa using h5, by simp⟩
  | stopped r => exact hv

/-- What follows a completed micro-step is what follows from the state it leaves. -/
theorem Micro.FeedKept.trans {cap : Nat} {d d' : Dec} {m : Micro}
    (h : (Micro.done d').FeedKept cap d) (h' : m.FeedKept cap d') : m.FeedKept cap d := by
  obtain ⟨-, -, -, hf, he, rs, ho, hp⟩ := h
  have join : ∀ {rs' : List Frame}, (∀ r ∈ rs', r.Proper cap) →
      ∀ r ∈ rs ++ rs', r.Proper cap :=
    fun hp' r hr => (List.mem_append.mp hr).elim (hp r) (hp' r)
  cases m with
  | done e =>
    obtain ⟨h1, h2, h3, h4, h5, rs', h6, h7⟩ := h'
    exact ⟨h1, h2, h3, h4.trans hf, h5.trans he, rs ++ rs', by simp [h6, ho], join h7⟩
  | raised e st info =>
    obtain ⟨h1, h2, h3, h4, h5, rs', h6, h7⟩ := h'
    exact ⟨h1, h2, h3, h4.trans he, h5, rs ++ rs', by simp [h6, ho], join h7⟩
  | stopped r => exact h'

theorem feedBytes_kept {cap : Nat} (bs : Bytes) {d : Dec} (hi : d.PhaseInv)
    (hb : d.body.length ≤ cap) (hr : d.dstate.isReserved = false) :
    (feedBytes cap bs d).FeedKept cap d := by
  induction bs generalizing d with
  | nil => exact ⟨hi, hb, hr, rfl, rfl, [], by simp, by simp⟩
  | cons b bs ih =>
    have h := byteStep_kept b hi hb hr
    simp only [feedBytes]
    split <;> rename_i hm <;> rw [hm] at h
    · exact h.trans (ih h.1 h.2.1 h.2.2.1)
    · exact h
    · exact h

/-! ### The length bytes -/

/-- The value of a big-endian field (R53). -/
def beValue : Bytes → Nat
  | [] => 0
  | e :: es => e.toNat * 2 ^ (8 * es.length) + beValue es

/-- A length byte lands in a lane of its own, so the OR is a sum (R111). -/
theorem orLength_toNat {d : Dec} {e : Byte} {k : Nat} (hc : d.cursor.toNat = 8 * k) (hk : k ≤ 7)
    (hm : d.length.toNat % 2 ^ (8 * (k + 1)) = 0) :
    (orLength d e).toNat = d.length.toNat + e.toNat * 2 ^ (8 * k) := by
  have he := e.isLt
  simp only [orLength, BitVec.toNat_or, BitVec.toNat_shiftLeft, BitVec.toNat_setWidth, hc,
    Nat.shiftLeft_eq]
  have hp : 2 ^ (8 * (k + 1)) = 2 ^ 8 * 2 ^ (8 * k) := by rw [← Nat.pow_add]; congr 1; omega
  have h1 : e.toNat * 2 ^ (8 * k) < 2 ^ (8 * (k + 1)) := by
    rw [hp]; exact (Nat.mul_lt_mul_right (Nat.two_pow_pos _)).mpr he
  have h2 : 2 ^ (8 * (k + 1)) ≤ 2 ^ 64 := Nat.pow_le_pow_right (by decide) (by omega)
  rw [Nat.mod_eq_of_lt (a := e.toNat) (by omega), Nat.mod_eq_of_lt (a := e.toNat * _) (by omega)]
  obtain ⟨q, hq⟩ := Nat.dvd_of_mod_eq_zero hm
  rw [hq, Nat.two_pow_add_eq_or_of_lt h1]

/-- The last length bytes, from any shift on: the length is kept mod 2^32 and the payload is entered
(R111, R8). -/
theorem feedBytes_lengthBytes (cap : Nat) (es : Bytes) {d : Dec} (hs : d.dstate = .awaitExtLen)
    (hne : es ≠ []) (hl : es.length ≤ 8) (hc : d.cursor.toNat = 8 * (es.length - 1))
    (hm : d.length.toNat % 2 ^ (8 * es.length) = 0) :
    feedBytes cap es d =
      Dec.enterPayload cap { d with
        length := BitVec.ofNat 64 ((d.length.toNat + beValue es) % 2 ^ 32), cursor := 0 } := by
  induction es generalizing d with
  | nil => exact absurd rfl hne
  | cons e es ih =>
    simp only [List.length_cons] at hl hc hm
    have hor := orLength_toNat (e := e) (k := es.length) (by simpa using hc) (by omega) hm
    cases es with
    | nil =>
      rw [feedBytes_singleton, byteStep_awaitExtLen cap e hs, uExtLen]
      have h0 : d.cursor = 0 := BitVec.eq_of_toNat_eq (by simpa using hc)
      have hv : trunc32 (orLength d e) =
          BitVec.ofNat 64 ((d.length.toNat + beValue [e]) % 2 ^ 32) := by
        apply BitVec.eq_of_toNat_eq
        rw [trunc32_toNat, hor]
        simp [beValue]; omega
      rw [if_pos h0, hv, ← h0]
    | cons e1 es =>
      rw [feedBytes, byteStep_awaitExtLen cap e hs, uExtLen]
      have h0 : d.cursor ≠ 0 := by intro h; rw [h] at hc; simp at hc
      simp only [List.length_cons] at hc
      have hc' : (d.cursor - 8).toNat = d.cursor.toNat - 8 := by
        rw [BitVec.toNat_sub_of_le]
        · rfl
        · rw [BitVec.le_def]; simp; omega
      simp only [if_neg h0]
      refine (ih (d := { d with length := orLength d e, cursor := d.cursor - 8 }) hs (by simp)
        (by omega) (by simp only [hc', hc, List.length_cons]; omega) ?_).trans ?_
      · rw [hor]
        have hd1 : 2 ^ (8 * (e1 :: es).length) ∣ d.length.toNat :=
          Nat.dvd_trans (Nat.pow_dvd_pow 2 (by simp)) (Nat.dvd_of_mod_eq_zero hm)
        exact Nat.mod_eq_zero_of_dvd (Nat.dvd_add hd1 (Nat.dvd_mul_left _ _))
      · simp only [hor, beValue, Nat.add_assoc]

/-! ### The payload bytes -/

/-- What payload bytes are stored as, from the cursor on (R113, R114). -/
def Dec.storedAs (d : Dec) (ps : Bytes) : Bytes :=
  if d.dstate = .awaitMaskedBody then maskFrom d.key d.cursor.toNat ps else ps

/-- The last payload bytes, from any cursor on: they are stored, and the frame is emitted. -/
theorem feedBytes_payload (cap : Nat) (ps : Bytes) {d : Dec}
    (hs : d.dstate = .awaitBody ∨ d.dstate = .awaitMaskedBody) (hne : ps ≠ [])
    (hl : d.cursor.toNat + ps.length = d.length.toNat) (h32 : d.length.toNat < 2 ^ 32)
    (hb : d.body.length = d.length.toNat) :
    feedBytes cap ps d =
      .done (Dec.emit { d with body := d.body.take d.cursor.toNat ++ d.storedAs ps }) := by
  induction ps generalizing d with
  | nil => exact absurd rfl hne
  | cons p ps ih =>
    simp only [List.length_cons] at hl
    obtain ⟨x, hx, hst⟩ : ∃ x, byteStep cap p d = d.storeBody x ∧
        ∀ e : Dec, e.dstate = d.dstate → e.key = d.key → e.cursor.toNat = d.cursor.toNat + 1 →
          d.storedAs (p :: ps) = x :: e.storedAs ps := by
      rcases hs with h | h
      · exact ⟨p, by simp [byteStep, h, uBody],
          fun e he _ _ => by simp [Dec.storedAs, h, he]⟩
      · exact ⟨p ^^^ d.key.cyclic d.cursor.toNat, by simp [byteStep, h, uMaskedBody],
          fun e he hk hc => by simp [Dec.storedAs, h, he, hk, hc, maskFrom]⟩
    have hc : (d.cursor + 1).toNat = d.cursor.toNat + 1 := by
      rw [BitVec.toNat_add]; simp; omega
    have hset : d.body.set d.cursor.toNat x =
        d.body.take d.cursor.toNat ++ x :: d.body.drop (d.cursor.toNat + 1) := by
      rw [List.set_eq_take_append_cons_drop, if_pos (by omega)]
    rw [hst { d with body := d.body.set d.cursor.toNat x, cursor := d.cursor + 1 } rfl rfl hc]
    have hp := putBody_of_lt x (show d.cursor.toNat < d.body.length by omega)
    simp only [feedBytes, hx, Dec.storeBody, hp, hc]
    cases ps with
    | nil =>
      simp only [List.length_nil, Nat.zero_add] at hl
      have : d.body.drop (d.cursor.toNat + 1) = [] := by simp; omega
      simp only [if_pos hl, hset, this, feedBytes, Dec.storedAs, maskFrom]
      split <;> simp [Dec.emit, Dec.record, Dec.sessionReset, Dec.push]
    | cons p1 ps =>
      simp only [List.length_cons] at hl
      simp only [if_neg (show ¬d.cursor.toNat + 1 = d.length.toNat by omega)]
      refine (ih (d := { d with body := d.body.set d.cursor.toNat x, cursor := d.cursor + 1 }) hs
        (by simp) (by simp only [hc, List.length_cons]; omega) h32 (by simpa using hb)).trans ?_
      have htake : (d.body.set d.cursor.toNat x).take (d.cursor.toNat + 1) =
          d.body.take d.cursor.toNat ++ [x] := by
        have : (d.body.take d.cursor.toNat).length = d.cursor.toNat := by simp; omega
        rw [hset, List.take_append, this, List.take_of_length_le (by omega)]
        simp
      simp only [hc, htake]
      simp [Dec.emit, Dec.record, Dec.sessionReset, Dec.push]

end Sys2Proof.Machine
end

