-- ==== Sys2Proof/Laws/PerInstr.lean ====
section
/-! SUPPORT. The rows of spec/opcode_table.json, and that every instruction's word stands in its row. -/

namespace Sys2Proof.Laws.TableRow

/-- The formats of the table. -/
inductive Format where
  | decToken
  | encToken
  | uop
  | hdr0
  | hdr1
  deriving DecidableEq, Repr

/-- A row of the table: its format, and the bits that are fixed (`mask`) with their values (`value`). -/
structure Row where
  format : Format
  mask : BitVec 11
  value : BitVec 11
  deriving DecidableEq, Repr

/-- The row of each instruction, with the table's own mask and match. -/
def row : Instr → Row
  | .decFeed _ => ⟨.decToken, 0x3, 0x0⟩
  | .decEnd => ⟨.decToken, 0x3, 0x1⟩
  | .decInvalid => ⟨.decToken, 0x3, 0x2⟩
  | .decReset => ⟨.decToken, 0x3, 0x3⟩
  | .encFrame _ => ⟨.encToken, 0x3, 0x0⟩
  | .encEnd => ⟨.encToken, 0x3, 0x1⟩
  | .encKindReserved => ⟨.encToken, 0x3, 0x2⟩
  | .encReset => ⟨.encToken, 0x3, 0x3⟩
  | .uopFlags _ => ⟨.uop, 0x700, 0x000⟩
  | .uopLenShort _ _ => ⟨.uop, 0x700, 0x100⟩
  | .uopLenExt16 _ => ⟨.uop, 0x77F, 0x17E⟩
  | .uopLenExt64 _ => ⟨.uop, 0x77F, 0x17F⟩
  | .uopExtLen _ => ⟨.uop, 0x700, 0x200⟩
  | .uopKey _ => ⟨.uop, 0x700, 0x300⟩
  | .uopBody _ => ⟨.uop, 0x700, 0x400⟩
  | .uopMaskedBody _ => ⟨.uop, 0x700, 0x500⟩
  | .uopReserved6 _ => ⟨.uop, 0x700, 0x600⟩
  | .uopReserved7 _ => ⟨.uop, 0x700, 0x700⟩
  | .wireHdr0 _ _ _ => ⟨.hdr0, 0x00, 0x00⟩
  | .wireHdr1Short _ _ => ⟨.hdr1, 0x00, 0x00⟩
  | .wireHdr1Ext16 _ _ => ⟨.hdr1, 0x7F, 0x7E⟩
  | .wireHdr1Ext64 _ _ => ⟨.hdr1, 0x7F, 0x7F⟩
  | .opcode0 _ _ => ⟨.hdr0, 0x0F, 0x00⟩
  | .opcode1 _ _ => ⟨.hdr0, 0x0F, 0x01⟩
  | .opcode2 _ _ => ⟨.hdr0, 0x0F, 0x02⟩
  | .opcode3 _ _ => ⟨.hdr0, 0x0F, 0x03⟩
  | .opcode4 _ _ => ⟨.hdr0, 0x0F, 0x04⟩
  | .opcode5 _ _ => ⟨.hdr0, 0x0F, 0x05⟩
  | .opcode6 _ _ => ⟨.hdr0, 0x0F, 0x06⟩
  | .opcode7 _ _ => ⟨.hdr0, 0x0F, 0x07⟩
  | .opcode8 _ _ => ⟨.hdr0, 0x0F, 0x08⟩
  | .opcode9 _ _ => ⟨.hdr0, 0x0F, 0x09⟩
  | .opcodeA _ _ => ⟨.hdr0, 0x0F, 0x0A⟩
  | .opcodeB _ _ => ⟨.hdr0, 0x0F, 0x0B⟩
  | .opcodeC _ _ => ⟨.hdr0, 0x0F, 0x0C⟩
  | .opcodeD _ _ => ⟨.hdr0, 0x0F, 0x0D⟩
  | .opcodeE _ _ => ⟨.hdr0, 0x0F, 0x0E⟩
  | .opcodeF _ _ => ⟨.hdr0, 0x0F, 0x0F⟩

/-- The format of a word. -/
def formatOf : PortWord → Format
  | .decToken _ _ => .decToken
  | .encToken _ _ => .encToken
  | .uop _ => .uop
  | .hdr0 _ => .hdr0
  | .hdr1 _ _ => .hdr1
  | .opcodeByte _ => .hdr0

/-- The bits of a word that the table numbers, zero-extended. -/
def bitsOf : PortWord → BitVec 11
  | .decToken k _ => k.setWidth 11
  | .encToken k _ => k.setWidth 11
  | .uop w => w
  | .hdr0 b => b.setWidth 11
  | .hdr1 b _ => b.setWidth 11
  | .opcodeByte b => b.setWidth 11

/-- A well-formed instruction's word has its row's format and its row's fixed bits. -/
def Statement (i : Instr) : Prop :=
  i.wellFormed = true →
    formatOf (encode i) = (row i).format ∧ bitsOf (encode i) &&& (row i).mask = (row i).value

theorem decFeed (chunk : Bytes) : Statement (.decFeed chunk) :=
  fun _ => ⟨rfl, (by decide : (0 : BitVec 2).setWidth 11 &&& (0x3 : BitVec 11) = 0x0)⟩

theorem decEnd : Statement (.decEnd) :=
  fun _ => ⟨rfl, rfl⟩

theorem decInvalid : Statement (.decInvalid) :=
  fun _ => ⟨rfl, rfl⟩

theorem decReset : Statement (.decReset) :=
  fun _ => ⟨rfl, rfl⟩

theorem encFrame (f : FrameIn) : Statement (.encFrame f) :=
  fun _ => ⟨rfl, (by decide : (0 : BitVec 2).setWidth 11 &&& (0x3 : BitVec 11) = 0x0)⟩

theorem encEnd : Statement (.encEnd) :=
  fun _ => ⟨rfl, rfl⟩

theorem encKindReserved : Statement (.encKindReserved) :=
  fun _ => ⟨rfl, rfl⟩

theorem encReset : Statement (.encReset) :=
  fun _ => ⟨rfl, rfl⟩

theorem uopFlags (b : Byte) : Statement (.uopFlags b) :=
  fun _ => ⟨rfl, by revert b; decide⟩

theorem uopLenShort (m : Bool) (l : BitVec 7) : Statement (.uopLenShort m l) :=
  fun _ => ⟨rfl, by revert m l; decide⟩

theorem uopLenExt16 (m : Bool) : Statement (.uopLenExt16 m) :=
  fun _ => ⟨rfl, by revert m; decide⟩

theorem uopLenExt64 (m : Bool) : Statement (.uopLenExt64 m) :=
  fun _ => ⟨rfl, by revert m; decide⟩

theorem uopExtLen (b : Byte) : Statement (.uopExtLen b) :=
  fun _ => ⟨rfl, by revert b; decide⟩

theorem uopKey (b : Byte) : Statement (.uopKey b) :=
  fun _ => ⟨rfl, by revert b; decide⟩

theorem uopBody (b : Byte) : Statement (.uopBody b) :=
  fun _ => ⟨rfl, by revert b; decide⟩

theorem uopMaskedBody (b : Byte) : Statement (.uopMaskedBody b) :=
  fun _ => ⟨rfl, by revert b; decide⟩

theorem uopReserved6 (b : Byte) : Statement (.uopReserved6 b) :=
  fun _ => ⟨rfl, by revert b; decide⟩

theorem uopReserved7 (b : Byte) : Statement (.uopReserved7 b) :=
  fun _ => ⟨rfl, by revert b; decide⟩

theorem wireHdr0 (f : Bool) (r : BitVec 3) (o : BitVec 4) : Statement (.wireHdr0 f r o) :=
  fun _ => ⟨rfl, by revert f r o; decide⟩

theorem wireHdr1Short (m : Bool) (l : BitVec 7) : Statement (.wireHdr1Short m l) :=
  fun _ => ⟨rfl, by revert m l; decide⟩

theorem wireHdr1Ext16 (m : Bool) (len : BitVec 16) : Statement (.wireHdr1Ext16 m len) :=
  fun _ => ⟨rfl, (by decide : ∀ m, (hdr1Byte m 126).setWidth 11 &&& (0x7F : BitVec 11) = 0x7E) m⟩

theorem wireHdr1Ext64 (m : Bool) (len : BitVec 64) : Statement (.wireHdr1Ext64 m len) :=
  fun _ => ⟨rfl, (by decide : ∀ m, (hdr1Byte m 127).setWidth 11 &&& (0x7F : BitVec 11) = 0x7F) m⟩

theorem opcode0 (f : Bool) (r : BitVec 3) : Statement (.opcode0 f r) :=
  fun _ => ⟨rfl, by revert f r; decide⟩

theorem opcode1 (f : Bool) (r : BitVec 3) : Statement (.opcode1 f r) :=
  fun _ => ⟨rfl, by revert f r; decide⟩

theorem opcode2 (f : Bool) (r : BitVec 3) : Statement (.opcode2 f r) :=
  fun _ => ⟨rfl, by revert f r; decide⟩

theorem opcode3 (f : Bool) (r : BitVec 3) : Statement (.opcode3 f r) :=
  fun _ => ⟨rfl, by revert f r; decide⟩

theorem opcode4 (f : Bool) (r : BitVec 3) : Statement (.opcode4 f r) :=
  fun _ => ⟨rfl, by revert f r; decide⟩

theorem opcode5 (f : Bool) (r : BitVec 3) : Statement (.opcode5 f r) :=
  fun _ => ⟨rfl, by revert f r; decide⟩

theorem opcode6 (f : Bool) (r : BitVec 3) : Statement (.opcode6 f r) :=
  fun _ => ⟨rfl, by revert f r; decide⟩

theorem opcode7 (f : Bool) (r : BitVec 3) : Statement (.opcode7 f r) :=
  fun _ => ⟨rfl, by revert f r; decide⟩

theorem opcode8 (f : Bool) (r : BitVec 3) : Statement (.opcode8 f r) :=
  fun _ => ⟨rfl, by revert f r; decide⟩

theorem opcode9 (f : Bool) (r : BitVec 3) : Statement (.opcode9 f r) :=
  fun _ => ⟨rfl, by revert f r; decide⟩

theorem opcodeA (f : Bool) (r : BitVec 3) : Statement (.opcodeA f r) :=
  fun _ => ⟨rfl, by revert f r; decide⟩

theorem opcodeB (f : Bool) (r : BitVec 3) : Statement (.opcodeB f r) :=
  fun _ => ⟨rfl, by revert f r; decide⟩

theorem opcodeC (f : Bool) (r : BitVec 3) : Statement (.opcodeC f r) :=
  fun _ => ⟨rfl, by revert f r; decide⟩

theorem opcodeD (f : Bool) (r : BitVec 3) : Statement (.opcodeD f r) :=
  fun _ => ⟨rfl, by revert f r; decide⟩

theorem opcodeE (f : Bool) (r : BitVec 3) : Statement (.opcodeE f r) :=
  fun _ => ⟨rfl, by revert f r; decide⟩

theorem opcodeF (f : Bool) (r : BitVec 3) : Statement (.opcodeF f r) :=
  fun _ => ⟨rfl, by revert f r; decide⟩

end Sys2Proof.Laws.TableRow
end

