-- ==== Sys2Proof/Tests/Slice0.lean ====
section
/-! SUPPORT. The model's own tests. Expected values are written out from spec/30_encoding.md (words) and
spec/95_test_vectors.md (steps; the vector's id stands in the name or the comment). The witnesses at the
end show a concrete state and operands that meet the hypotheses of each statement, clause by clause. -/

namespace Sys2Proof.Tests

open Sys2Proof.Machine

/-! ### Helpers -/

/-- The state an operation leaves; the given one if it stops. -/
def run (i : Instr) (s : State) : State :=
  match exec i s with
  | .next t => t
  | _ => s

/-- A machine just constructed whose decoder has been fed some bytes. -/
def fed (bs : Bytes) : State := run (.decFeed bs) State.reset

/-- The same with a body capacity of 4 bytes (spec/95_test_vectors.md L2.7). -/
def small (bs : Bytes) : State :=
  run (.decFeed bs) { State.reset with params := ⟨4, false⟩ }

/-- A machine just constructed with mask-key injection on (R9). -/
def masking : State := { State.reset with params := ⟨4, true⟩ }

/-- A machine whose decoder holds a reserved tag (R90). -/
def stuck : State := { State.reset with dec := { Dec.reset with dstate := .reserved6 } }

/-- The status of the last response. -/
def lastStatus (s : State) : Option Status := s.responses.getLast?.map Response.status

/-- A record with every field absent but its body. -/
def plain (b : BodyIn) : FrameIn := ⟨none, .absent, none, b, none⟩

/-- The fault an operation stops with. -/
def faultOf (o : Host.Outcome State Fault Refusal) : Option Fault :=
  match o with
  | .fault r => some r
  | _ => none

/-! ### Decoding: a word for every row, written out from R71 to R74 and R95 -/

theorem test_decode_decFeed : decode (.decToken 0b00 [0x81, 0x00]) = .ok (.decFeed [0x81, 0x00]) := rfl
theorem test_decode_decEnd : decode (.decToken 0b01 []) = .ok .decEnd := rfl
theorem test_decode_decInvalid : decode (.decToken 0b10 []) = .ok .decInvalid := rfl
theorem test_decode_decReset : decode (.decToken 0b11 []) = .ok .decReset := rfl
theorem test_decode_encFrame :
    decode (.encToken 0b00 (some (plain (.text [0x61])))) = .ok (.encFrame (plain (.text [0x61]))) :=
  rfl
theorem test_decode_encEnd : decode (.encToken 0b01 none) = .ok .encEnd := rfl
theorem test_decode_encKindReserved : decode (.encToken 0b10 none) = .ok .encKindReserved := rfl
theorem test_decode_encReset : decode (.encToken 0b11 none) = .ok .encReset := rfl
theorem test_decode_uopFlags : decode (.uop 0b00011111001) = .ok (.uopFlags 0xF9) := rfl
theorem test_decode_uopLenShort : decode (.uop 0b00111111101) = .ok (.uopLenShort true 125) := rfl
theorem test_decode_uopLenExt16 : decode (.uop 0b00111111110) = .ok (.uopLenExt16 true) := rfl
theorem test_decode_uopLenExt64 : decode (.uop 0b00101111111) = .ok (.uopLenExt64 false) := rfl
theorem test_decode_uopExtLen : decode (.uop 0b01001111110) = .ok (.uopExtLen 0x7E) := rfl
theorem test_decode_uopKey : decode (.uop 0b01100110111) = .ok (.uopKey 0x37) := rfl
theorem test_decode_uopBody : decode (.uop 0b10001101000) = .ok (.uopBody 0x68) := rfl
theorem test_decode_uopMaskedBody : decode (.uop 0b10101111111) = .ok (.uopMaskedBody 0x7F) := rfl
theorem test_decode_uopReserved6 : decode (.uop 0b11000000001) = .ok (.uopReserved6 0x01) := rfl
theorem test_decode_uopReserved7 : decode (.uop 0b11110000000) = .ok (.uopReserved7 0x80) := rfl
theorem test_decode_wireHdr0 : decode (.hdr0 0b11011000) = .ok (.wireHdr0 true 0b101 0b1000) := rfl
theorem test_decode_wireHdr1Short : decode (.hdr1 0b10000101 []) = .ok (.wireHdr1Short true 5) := rfl
theorem test_decode_wireHdr1Ext16 :
    decode (.hdr1 0b11111110 [0x01, 0x00]) = .ok (.wireHdr1Ext16 true 256) := rfl
theorem test_decode_wireHdr1Ext64 :
    decode (.hdr1 0b01111111 [0x80, 0, 0, 0, 0, 0, 0, 0x05]) =
      .ok (.wireHdr1Ext64 false 0x8000000000000005) := rfl
theorem test_decode_opcode0 : decode (.opcodeByte 0b11110000) = .ok (.opcode0 true 0b111) := rfl
theorem test_decode_opcode1 : decode (.opcodeByte 0b10000001) = .ok (.opcode1 true 0) := rfl
theorem test_decode_opcode2 : decode (.opcodeByte 0b00000010) = .ok (.opcode2 false 0) := rfl
theorem test_decode_opcode3 : decode (.opcodeByte 0b10000011) = .ok (.opcode3 true 0) := rfl
theorem test_decode_opcode4 : decode (.opcodeByte 0b10000100) = .ok (.opcode4 true 0) := rfl
theorem test_decode_opcode5 : decode (.opcodeByte 0b10000101) = .ok (.opcode5 true 0) := rfl
theorem test_decode_opcode6 : decode (.opcodeByte 0b10000110) = .ok (.opcode6 true 0) := rfl
theorem test_decode_opcode7 : decode (.opcodeByte 0b10000111) = .ok (.opcode7 true 0) := rfl
theorem test_decode_opcode8 : decode (.opcodeByte 0b10001000) = .ok (.opcode8 true 0) := rfl
theorem test_decode_opcode9 : decode (.opcodeByte 0b10001001) = .ok (.opcode9 true 0) := rfl
theorem test_decode_opcodeA : decode (.opcodeByte 0b00001010) = .ok (.opcodeA false 0) := rfl
theorem test_decode_opcodeB : decode (.opcodeByte 0b10001011) = .ok (.opcodeB true 0) := rfl
theorem test_decode_opcodeC : decode (.opcodeByte 0b10001100) = .ok (.opcodeC true 0) := rfl
theorem test_decode_opcodeD : decode (.opcodeByte 0b10001101) = .ok (.opcodeD true 0) := rfl
theorem test_decode_opcodeE : decode (.opcodeByte 0b10001110) = .ok (.opcodeE true 0) := rfl
theorem test_decode_opcodeF : decode (.opcodeByte 0b01001111) = .ok (.opcodeF false 0b100) := rfl

/-! ### Decoding: words that are rejected, by name -/

theorem test_reject_encode_without_record : decode (.encToken 0b00 none) = .error .operandMissing := rfl
theorem test_reject_end_with_chunk : decode (.decToken 0b01 [0x00]) = .error .operandUnexpected := rfl
theorem test_reject_end_with_record :
    decode (.encToken 0b01 (some (plain .invalid))) = .error .operandUnexpected := rfl
theorem test_reject_missing_length_byte : decode (.hdr1 0x7E [0x00]) = .error .extensionWrong := rfl

/-! ### Words numbered as the table numbers them (log entry 5) -/

theorem test_tableWord_dec_token : decodeTableWord 8 0x2 = some .decInvalid := by decide
theorem test_tableWord_opcode : decodeTableWord 8 0x8A = some (.opcodeA true 0) := by decide
theorem test_tableWord_ext16 : decodeTableWord 8 0xFE = some (.wireHdr1Ext16 true 0) := by decide
theorem test_tableWord_uop : decodeTableWord 16 0x17F = some (.uopLenExt64 false) := by decide
theorem test_tableWord_too_wide : decodeTableWord 16 0x800 = none := by decide

/-! ### WellFormed: an ill-formed term for each check -/

theorem test_illformed_uop_length : (Instr.uopLenShort true 126).wellFormed = false := by decide
theorem test_illformed_wire_length : (Instr.wireHdr1Short false 127).wellFormed = false := by decide
theorem test_illformed_body (bs : Bytes) (h : bs.length = 2 ^ 64) :
    (Instr.encFrame (plain (.binary bs))).wellFormed = false := by
  simp [Instr.wellFormed, FrameIn.fits, BodyIn.size, plain, h]
theorem test_reject_body (bs : Bytes) (h : bs.length = 2 ^ 64) :
    decode (.encToken 0b00 (some (plain (.binary bs)))) = .error .bodyTooLong := by
  simp [decode, decodeEncToken, FrameIn.fits, BodyIn.size, plain, h]

/-! ### Operations -/

/-- R148's corner cases and its example. -/
theorem test_header_forms :
    header true 2 false 125 = [0x82, 0x7D] ∧ header true 2 false 126 = [0x82, 0x7E, 0x00, 0x7E] ∧
    header true 2 false 300 = [0x82, 0x7E, 0x01, 0x2C] ∧
    header true 2 false 65535 = [0x82, 0x7E, 0xFF, 0xFF] := by decide

/-- R148's corner cases of the 8-byte form. -/
theorem test_header_ext64 :
    header true 2 false 65536 = [0x82, 0x7F, 0, 0, 0, 0, 0, 0x01, 0, 0] ∧
    header true 2 false (2 ^ 32 + 5) = [0x82, 0x7F, 0, 0, 0, 0x01, 0, 0, 0, 0x05] := by decide

/-- R145: 16 becomes 0, 18 becomes 2, and −1 becomes 15. -/
theorem test_opcode_reduction :
    (resolveOpcode true (.num 16)).toOption = some 0 ∧
    (resolveOpcode false (.num 18)).toOption = some 2 ∧
    (resolveOpcode false (.num (-1))).toOption = some 15 := by decide

/-- R85: the numeric status codes. -/
theorem test_status_codes :
    [Status.ok, .invalidInput, .unsupported, .afterEnd, .capacityExceeded].map Status.code =
      [0, 1, 2, 3, 4] := rfl

/-- The masked frame of R92's `wire` notation; the bytes are vector B4's. -/
theorem test_wireFrame :
    wireFrame true 1 (some ⟨0x37, 0xFA, 0x21, 0x3D⟩) [0x48, 0x65, 0x6C, 0x6C, 0x6F] =
      [0x81, 0x85, 0x37, 0xFA, 0x21, 0x3D, 0x7F, 0x9F, 0x4D, 0x51, 0x58] := by decide

/-- R119 on vector W1's bytes with the next frame's first byte behind them. -/
theorem test_parseFrame :
    parseFrame [0x81, 0x05, 0x68, 0x65, 0x6C, 0x6C, 0x6F, 0x82] =
      some (⟨true, 1, false, .text, [0x68, 0x65, 0x6C, 0x6C, 0x6F]⟩, [0x82]) := by decide

/-! ### Steps of the decoder's host operations -/

theorem test_decFeed_H2 :
    (fed [0x81, 0x00, 0x82, 0x00]).dec = { Dec.reset with
      dout := [.frame ⟨true, 1, false, .text, []⟩, .frame ⟨true, 2, false, .binary, []⟩] } := by
  decide

theorem test_decFeed_B4 :
    (fed [0x81, 0x85, 0x37, 0xFA, 0x21, 0x3D, 0x7F, 0x9F, 0x4D, 0x51, 0x58]).dec.dout =
      [.frame ⟨true, 1, true, .text, [0x48, 0x65, 0x6C, 0x6C, 0x6F]⟩] := by decide

theorem test_decEnd_H7 :
    (run .decEnd (fed [0x81, 0x05, 0x68])).dec =
      ⟨.awaitBody, 1, true, 1, false, 5, ⟨0, 0, 0, 0⟩, [0x68, 0, 0, 0, 0], true, false,
        [.sentinel]⟩ := by decide

theorem test_decEnd_W6 :
    lastStatus (run .decEnd (run .decEnd State.reset)) = some .afterEnd ∧
    (run .decEnd (run .decEnd State.reset)).dec.dout = [.sentinel] := by decide

theorem test_decInvalid_H3 :
    lastStatus (run .decInvalid (fed [0x81])) = some .invalidInput ∧
    (run .decInvalid (fed [0x81])).dec = (fed [0x81]).dec := by decide

theorem test_decInvalid_H5 :
    lastStatus (run .decInvalid (run .decEnd State.reset)) = some .afterEnd := by decide

/-- R200 from the end state of vector H7. -/
theorem test_decReset :
    (run .decReset (run .decEnd (fed [0x81, 0x05, 0x68]))).dec = State.reset.dec := by decide

/-! ### Steps of the encoder's host operations -/

theorem test_encFrame_E22 :
    (run (.encFrame ⟨none, .absent, some true, .text [0x48, 0x65, 0x6C, 0x6C, 0x6F],
        some ⟨0x37, 0xFA, 0x21, 0x3D⟩⟩) masking).enc.eout =
      [.chunk [0x81, 0x85, 0x37, 0xFA, 0x21, 0x3D], .chunk [0x7F, 0x9F, 0x4D, 0x51, 0x58]] := by
  decide

theorem test_encFrame_E18 :
    (run (.encFrame ⟨none, .nonNumeric, some true, .binary [], none⟩) State.reset).responses =
      [⟨.enc, .invalidInput, .opcode⟩] := by decide

theorem test_encEnd_E19 :
    (run .encEnd State.reset).enc = ⟨true, [.sentinel]⟩ ∧
    lastStatus (run .encEnd (run .encEnd State.reset)) = some .afterEnd := by decide

/-- R95: "unused: no such token". -/
theorem test_encKindReserved : exec .encKindReserved State.reset = .refused .noSuchToken := rfl

/-- R201 after vector E19. -/
theorem test_encReset : (run .encReset (run .encEnd State.reset)).enc = ⟨false, []⟩ := by decide

/-! ### Steps of the micro-operations -/

theorem test_uopFlags_F4 :
    (run (.uopFlags 0xF9) State.reset).dec =
      { Dec.reset with fin := true, opcode := 9, dstate := .awaitLen } := by decide

theorem test_uopLenShort_N2 :
    (run (.uopLenShort false 0) (fed [0x81])).dec =
      { Dec.reset with dout := [.frame ⟨true, 1, false, .text, []⟩] } := by decide

/-- Vector Q1, up to the faulting byte. -/
theorem test_uopLenShort_Q1 :
    (run (.uopLenShort false 5) (small [0x81])).dec =
      { Dec.reset with
        dstate := .awaitLen, fin := true, opcode := 1, length := 5, dfault := true } := by decide

theorem test_uopLenExt16_N6 :
    (run (.uopLenExt16 true) (fed [0x81])).dec =
      { Dec.reset with
        dstate := .awaitExtLen, fin := true, opcode := 1, mask := true, cursor := 8 } := by decide

theorem test_uopLenExt64_N7 :
    (run (.uopLenExt64 true) (fed [0x81])).dec =
      { Dec.reset with
        dstate := .awaitExtLen, fin := true, opcode := 1, mask := true, cursor := 56 } := by decide

theorem test_uopExtLen_X4 :
    (run (.uopExtLen 0x05) (fed [0x82, 0x7E, 0x00])).dec =
      { Dec.reset with
        dstate := .awaitBody, fin := true, opcode := 2, length := 5, body := [0, 0, 0, 0, 0] } := by
  decide

theorem test_uopExtLen_X10 :
    (run (.uopExtLen 0x00) (fed [0x82, 0x7F, 0, 0, 0, 0x01, 0, 0, 0])).dec =
      { Dec.reset with dout := [.frame ⟨true, 2, false, .binary, []⟩] } := by decide

theorem test_uopKey_K2 :
    (run (.uopKey 0x03) (fed [0x82, 0x80, 0x01, 0x02])).dec =
      { Dec.reset with
        dstate := .awaitKey, cursor := 3, fin := true, opcode := 2, mask := true,
        key := ⟨1, 2, 3, 0⟩ } := by decide

theorem test_uopKey_K1 :
    (run (.uopKey 0x04) (fed [0x82, 0x80, 0x01, 0x02, 0x03])).dec.dout =
      [.frame ⟨true, 2, true, .binary, []⟩] := by decide

theorem test_uopBody_B1 :
    (run (.uopBody 0xCC) (fed [0x02, 0x03, 0xAA, 0xBB])).dec =
      { Dec.reset with dout := [.frame ⟨false, 2, false, .binary, [0xAA, 0xBB, 0xCC]⟩] } := by
  decide

/-- Vector B2's fifth payload byte, which uses KEY[0] again. -/
theorem test_uopMaskedBody_B2 :
    (run (.uopMaskedBody 0x55)
        (fed [0x82, 0x86, 0x01, 0x02, 0x03, 0x04, 0x11, 0x22, 0x33, 0x44])).dec.body =
      [0x10, 0x20, 0x30, 0x40, 0x54, 0] := by decide

/-- R90 of a byte in a reserved state. -/
theorem test_uopReserved6 : faultOf (exec (.uopReserved6 0x00) stuck) = some .reservedTag := rfl
theorem test_uopReserved7 : faultOf (exec (.uopReserved7 0xFF) stuck) = some .reservedTag := rfl

/-! ### Steps of the wire rows -/

theorem test_wireHdr0_F2 :
    (run (.wireHdr0 false 0b111 0) State.reset).dec = { Dec.reset with dstate := .awaitLen } := by
  decide

theorem test_wireHdr1Short_N3 :
    (run (.wireHdr1Short true 0) (fed [0x81])).dec =
      { Dec.reset with dstate := .awaitKey, fin := true, opcode := 1, mask := true } := by decide

theorem test_wireHdr1Ext16_X5 :
    (run (.wireHdr1Ext16 false 0) (fed [0x82])).dec =
      { Dec.reset with dout := [.frame ⟨true, 2, false, .binary, []⟩] } := by decide

theorem test_wireHdr1Ext64_X8 :
    (run (.wireHdr1Ext64 false 0x100000005) (fed [0x82])).dec =
      { Dec.reset with
        dstate := .awaitBody, fin := true, opcode := 2, length := 5, body := [0, 0, 0, 0, 0] } := by
  decide

/-- R78: each opcode row leaves its own value in the opcode register. -/
theorem test_opcode_rows :
    ([.opcode0 true 0, .opcode1 true 0, .opcode2 true 0, .opcode3 true 0, .opcode4 true 0,
      .opcode5 true 0, .opcode6 true 0, .opcode7 true 0, .opcode8 true 0, .opcode9 true 0,
      .opcodeA true 0, .opcodeB true 0, .opcodeC true 0, .opcodeD true 0, .opcodeE true 0,
      .opcodeF true 0].map fun i => (run i State.reset).dec.opcode) =
      [0, 1, 2, 3, 4, 5, 6, 7, 8, 9, 10, 11, 12, 13, 14, 15] := by decide

/-- A wire row whose byte the decoder takes as payload (R113): the byte of OPCODE_A with FIN is 8A. -/
theorem test_opcodeA_as_payload :
    (run (.opcodeA true 0) (fed [0x82, 0x02])).dec.body = [0x8A, 0] := by decide

/-! ### Steps of the whole machine -/

/-- A byte at the input is a one-byte Feed (R92), and the selector word is formed from dstate. -/
theorem test_step_byte :
    step { fed [0x81] with input := [.byte 0x00, .word (.decToken 1 [])] } =
      .next { run (.decFeed [0x00]) (fed [0x81]) with input := [.word (.decToken 1 [])] } := by
  rfl

/-- A placed word is what the next step runs (log entry 4). -/
theorem test_step_placed_word :
    step (State.reset.withFetchWord 8 0x89) = exec (.opcode9 true 0) State.reset := by rfl

/-- R185: with nothing to take the units hold their state. -/
theorem test_step_idle : step State.reset = .next State.reset := rfl

/-! ### Witnesses: a state and operands that meet the hypotheses of each statement -/

theorem witness_StepRunsTheDecodedInstruction_word :
    ({ State.reset with input := [.word (.decToken 1 [])] } : State).input =
      .word (.decToken 1 []) :: [] ∧
    decode (.decToken 1 []) = .ok .decEnd ∧ Instr.decEnd.wellFormed = true := ⟨rfl, rfl, rfl⟩

theorem witness_StepRunsTheDecodedInstruction_byte :
    ({ fed [0x81] with input := [.byte 0xFD] } : State).input = .byte 0xFD :: [] ∧
    decode (.uop ((fed [0x81]).dec.dstate.code ++ (0xFD : Byte))) = .ok (.uopLenShort true 125) ∧
    (Instr.uopLenShort true 125).wellFormed = true := ⟨rfl, rfl, rfl⟩

theorem witness_StepRunsTheDecodedInstruction_rejected :
    ({ State.reset with input := [.word (.encToken 0 none)] } : State).input =
      .word (.encToken 0 none) :: [] ∧
    decode (.encToken 0 none) = .error .operandMissing ∧ State.reset.input = [] := ⟨rfl, rfl, rfl⟩

theorem witness_PlacedWordIsRunByTheNextStep :
    decodeTableWord 8 0x01 = some .decEnd ∧ microOperationTag .decEnd = none ∧
    decodeTableWord 16 0x17F = some (.uopLenExt64 false) ∧
    microOperationTag (.uopLenExt64 false) = some .awaitLen ∧
    (fed [0x81]).dec.dstate = .awaitLen := by decide

theorem witness_DecodeInvertsEncode :
    (Instr.uopLenShort true 125).wellFormed = true ∧
    (Instr.encFrame (plain .invalid)).wellFormed = true := by decide

theorem witness_EncodeInvertsDecode :
    decode (.hdr1 0x7D []) = .ok (.wireHdr1Short false 125) := rfl

theorem witness_FlagsByteRecordsFinAndOpcode :
    State.reset.dec.Ready ∧ State.reset.dec.dstate = .awaitFlags := ⟨⟨rfl, rfl, rfl⟩, rfl⟩

/-- The four clauses: length 125 with a mask, 1 without, 0, and one over the capacity. -/
theorem witness_ShortLengthByteEntersThePayload :
    (fed [0x81]).dec.Ready ∧ (fed [0x81]).dec.dstate = .awaitLen ∧
    (125 : BitVec 7).toNat ≤ 125 ∧ (125 : BitVec 7).toNat ≤ (fed [0x81]).params.bodyCapacity ∧
    (1 : BitVec 7).toNat ≤ (fed [0x81]).params.bodyCapacity ∧ (1 : BitVec 7) ≠ 0 ∧
    (small [0x81]).dec.Ready ∧ (small [0x81]).dec.dstate = .awaitLen ∧
    (small [0x81]).params.bodyCapacity < (5 : BitVec 7).toNat := by
  unfold Dec.Ready; decide

theorem witness_ExtendedIndicatorsStartTheShift :
    (fed [0x81]).dec.Ready ∧ (fed [0x81]).dec.dstate = .awaitLen := ⟨⟨rfl, rfl, rfl⟩, rfl⟩

/-- The smallest and the largest shift that is not 0. -/
theorem witness_LengthByteOrsAtTheShift :
    (fed [0x81, 0x7E]).dec.Ready ∧ (fed [0x81, 0x7E]).dec.dstate = .awaitExtLen ∧
    (fed [0x81, 0x7E]).dec.cursor.toNat = 8 ∧
    (fed [0x81, 0x7F]).dec.Ready ∧ (fed [0x81, 0x7F]).dec.dstate = .awaitExtLen ∧
    (fed [0x81, 0x7F]).dec.cursor.toNat = 56 := by
  unfold Dec.Ready; decide

/-- The four clauses: masked, unmasked, unmasked and 0, and one over the capacity. -/
theorem witness_LastLengthByteTruncatesAndEnters :
    (fed [0x81, 0xFE, 0x00]).dec.Ready ∧ (fed [0x81, 0xFE, 0x00]).dec.dstate = .awaitExtLen ∧
    (fed [0x81, 0xFE, 0x00]).dec.cursor = 0 ∧ (fed [0x81, 0xFE, 0x00]).dec.mask = true ∧
    (fed [0x81, 0x7E, 0x00]).dec.Ready ∧ (fed [0x81, 0x7E, 0x00]).dec.dstate = .awaitExtLen ∧
    (fed [0x81, 0x7E, 0x00]).dec.cursor = 0 ∧ (fed [0x81, 0x7E, 0x00]).dec.mask = false ∧
    ((fed [0x81, 0x7E, 0x00]).dec.length.toNat ||| (1 : Byte).toNat) % 2 ^ 32 = 1 ∧
    ((fed [0x81, 0x7E, 0x00]).dec.length.toNat ||| (0 : Byte).toNat) % 2 ^ 32 = 0 ∧
    (small [0x81, 0x7E, 0x00]).dec.Ready ∧
    (small [0x81, 0x7E, 0x00]).dec.dstate = .awaitExtLen ∧
    (small [0x81, 0x7E, 0x00]).dec.cursor = 0 ∧
    (small [0x81, 0x7E, 0x00]).params.bodyCapacity <
      ((small [0x81, 0x7E, 0x00]).dec.length.toNat ||| (5 : Byte).toNat) % 2 ^ 32 := by
  unfold Dec.Ready; decide

/-- The five clauses: cursors 0 to 3, and cursor 3 with length 0 and with length 5. -/
theorem witness_KeyByteFillsTheKeyAndTheFourthOpensTheBody :
    (∀ bs ∈ [[0x81, 0x85], [0x81, 0x85, 0x37], [0x81, 0x85, 0x37, 0xFA],
        [0x81, 0x85, 0x37, 0xFA, 0x21], [0x81, 0x80, 0x37, 0xFA, 0x21]],
      (fed bs).dec.Ready ∧ (fed bs).dec.dstate = .awaitKey ∧
      (fed bs).dec.length.toNat ≤ (fed bs).params.bodyCapacity) ∧
    (fed [0x81, 0x85]).dec.cursor = 0 ∧ (fed [0x81, 0x85, 0x37]).dec.cursor = 1 ∧
    (fed [0x81, 0x85, 0x37, 0xFA]).dec.cursor = 2 ∧
    (fed [0x81, 0x85, 0x37, 0xFA, 0x21]).dec.cursor = 3 ∧
    (fed [0x81, 0x85, 0x37, 0xFA, 0x21]).dec.length ≠ 0 ∧
    (fed [0x81, 0x80, 0x37, 0xFA, 0x21]).dec.cursor = 3 ∧
    (fed [0x81, 0x80, 0x37, 0xFA, 0x21]).dec.length = 0 := by
  unfold Dec.Ready; decide

/-- The two clauses: a byte that is not the last, and the last. -/
theorem witness_BodyByteIsStoredAndTheLastEmits :
    (∀ bs ∈ [[0x81, 0x02], [0x81, 0x02, 0x68]],
      (fed bs).dec.Ready ∧ (fed bs).dec.dstate = .awaitBody ∧
      (fed bs).dec.cursor.toNat < (fed bs).dec.length.toNat ∧
      (fed bs).dec.length.toNat < 2 ^ 32 ∧
      (fed bs).dec.body.length = (fed bs).dec.length.toNat) ∧
    (fed [0x81, 0x02]).dec.cursor.toNat + 1 < (fed [0x81, 0x02]).dec.length.toNat ∧
    (fed [0x81, 0x02, 0x68]).dec.cursor.toNat + 1 = (fed [0x81, 0x02, 0x68]).dec.length.toNat := by
  unfold Dec.Ready; decide

/-- The two clauses, with the key byte of each. -/
theorem witness_MaskedBodyByteIsUnmaskedAndStored :
    (∀ bs ∈ [[0x81, 0x82, 1, 2, 3, 4], [0x81, 0x82, 1, 2, 3, 4, 0x68]],
      (fed bs).dec.Ready ∧ (fed bs).dec.dstate = .awaitMaskedBody ∧
      (fed bs).dec.cursor.toNat < (fed bs).dec.length.toNat ∧
      (fed bs).dec.length.toNat < 2 ^ 32 ∧
      (fed bs).dec.body.length = (fed bs).dec.length.toNat) ∧
    ([1, 2, 3, 4] : Bytes)[(fed [0x81, 0x82, 1, 2, 3, 4]).dec.cursor.toNat % 4]? = some 1 ∧
    (fed [0x81, 0x82, 1, 2, 3, 4]).dec.cursor.toNat + 1 <
      (fed [0x81, 0x82, 1, 2, 3, 4]).dec.length.toNat ∧
    ([1, 2, 3, 4] : Bytes)[(fed [0x81, 0x82, 1, 2, 3, 4, 0x68]).dec.cursor.toNat % 4]? = some 2 ∧
    (fed [0x81, 0x82, 1, 2, 3, 4, 0x68]).dec.cursor.toNat + 1 =
      (fed [0x81, 0x82, 1, 2, 3, 4, 0x68]).dec.length.toNat := by
  unfold Dec.Ready; decide

theorem witness_SelectedMicroOperationIsAOneByteFeed :
    (fed [0x81]).dec.dstate.isReserved = false ∧
    decode (.uop ((fed [0x81]).dec.dstate.code ++ (0x7D : Byte))) =
      .ok (.uopLenShort false 125) := ⟨rfl, rfl⟩

theorem witness_MicroOperationOfAnotherStateIsStopped :
    State.reset.dec.Ready ∧ microOperationTag (.uopKey 0x37) = some .awaitKey ∧
    State.reset.dec.dstate ≠ .awaitKey := ⟨⟨rfl, rfl, rfl⟩, rfl, by decide⟩

/-- A first byte that is taken, and one that raises the capacity fault. -/
theorem witness_FeedTakesItsBytesLeftToRight :
    State.reset.dec.Ready ∧
    exec (.decFeed [0x81]) State.reset = .next (run (.decFeed [0x81]) State.reset) ∧
    (run (.decFeed [0x81]) State.reset).responses =
      State.reset.responses ++ [⟨.dec, .ok, .nothing⟩] ∧
    (small [0x81]).dec.Ready ∧
    exec (.decFeed [0x05]) (small [0x81]) = .next (run (.decFeed [0x05]) (small [0x81])) ∧
    (run (.decFeed [0x05]) (small [0x81])).responses ≠
      (small [0x81]).responses ++ [⟨.dec, .ok, .nothing⟩] :=
  ⟨⟨rfl, rfl, rfl⟩, rfl, by decide, ⟨rfl, rfl, rfl⟩, rfl, by decide⟩

/-- A decoder in the middle of a payload, at the default capacity and at a small one. -/
theorem witness_FeedCompletesOnEveryByteSequence :
    (fed [0x81, 0x02, 0x68]).dec.Ready ∧
    (fed [0x81, 0x02, 0x68]).dec.Inv (fed [0x81, 0x02, 0x68]).params.bodyCapacity ∧
    2 ^ 32 - 1 ≤ (fed [0x81, 0x02, 0x68]).params.bodyCapacity ∧
    (small [0x81]).dec.Ready ∧ (small [0x81]).dec.Inv (small [0x81]).params.bodyCapacity :=
  ⟨⟨rfl, rfl, rfl⟩,
    ⟨rfl, by decide, by decide, fun _ => ⟨rfl, by decide, by decide, rfl⟩⟩, by decide,
    ⟨rfl, rfl, rfl⟩, ⟨rfl, by decide, by decide, fun _ => ⟨rfl, rfl, rfl, rfl, rfl⟩⟩⟩

/-- A decoder with a partial frame in flight (vectors H7 and H3). -/
theorem witness_DecoderEndForwardsTheSentinel : (fed [0x81, 0x05, 0x68]).dec.Ready :=
  ⟨rfl, rfl, rfl⟩

theorem witness_DecoderInvalidChangesNothing : (fed [0x81]).dec.Ready := ⟨rfl, rfl, rfl⟩

theorem witness_EncoderEndForwardsTheSentinel : State.reset.enc.eended = false := rfl

/-- The three length forms at the ends of their ranges. -/
theorem witness_HeaderFollowsTheLengthForms :
    (0x82 : Byte) = BitVec.ofNat 8 (true.toNat * 128 + (2 : BitVec 4).toNat) ∧ 125 < 126 ∧
    126 ≤ 126 ∧ 126 < 65536 ∧ 126 ≤ 65535 ∧ 65535 < 65536 ∧ 65536 ≤ 65536 ∧
    65536 ≤ 2 ^ 64 - 1 ∧ 2 ^ 64 - 1 < 2 ^ 64 := by decide

theorem witness_MaskingIsByPosition :
    ([0x48, 0x65, 0x6C, 0x6C, 0x6F] : Bytes)[4]? = some 0x6F ∧
    ([0x37, 0xFA, 0x21, 0x3D] : Bytes)[4 % 4]? = some 0x37 := by decide

/-- A Text body with the default opcode, and a Binary one with the opcode −1 (vector E7). -/
theorem witness_UnmaskedFrameIsHeaderThenBody :
    State.reset.enc.eended = false ∧ ([0x61] : Bytes).length < 2 ^ 64 ∧
    (plain (.text [0x61])).body = .text [0x61] ∧ (plain (.text [0x61])).opcode = .absent ∧
    (plain (.text [0x61])).mask ≠ some true ∧
    (⟨none, .num (-1), some false, .binary [], none⟩ : FrameIn).body = .binary [] ∧
    (((15 : BitVec 4).toNat : Nat) : Int) = (-1) % 16 := by decide

theorem witness_MaskedFrameCarriesItsKey :
    masking.enc.eended = false ∧ masking.params.encMaskSupported = true ∧
    (⟨none, .num 18, some true, .binary [], some ⟨1, 2, 3, 4⟩⟩ : FrameIn).mask = some true ∧
    (⟨none, .num 18, some true, .binary [], some ⟨1, 2, 3, 4⟩⟩ : FrameIn).key =
      some ⟨1, 2, 3, 4⟩ ∧
    (((2 : BitVec 4).toNat : Nat) : Int) = 18 % 16 := by decide

/-- The three checks: E15, E16, and E14 with E23. -/
theorem witness_EncoderErrorsInTheirOrder :
    State.reset.enc.eended = false ∧ (plain .invalid).body = .invalid ∧
    (⟨none, .nonNumeric, none, .binary [], none⟩ : FrameIn).body ≠ .invalid ∧
    (⟨none, .absent, some true, .binary [1], none⟩ : FrameIn).opcode ≠ .nonNumeric ∧
    State.reset.params.encMaskSupported = false ∧ masking.params.encMaskSupported = true ∧
    (⟨none, .absent, some true, .binary [], none⟩ : FrameIn).key = none := by decide

theorem witness_EncodeDependsOnRecordAndOptionOnly :
    State.reset.enc.eended = false ∧ (fed [0x81]).enc.eended = false ∧
    State.reset.params.encMaskSupported = (fed [0x81]).params.encMaskSupported ∧
    exec (.encFrame (plain (.text [0x61]))) State.reset =
      .next (run (.encFrame (plain (.text [0x61]))) State.reset) ∧
    exec (.encFrame (plain (.text [0x61]))) (fed [0x81]) =
      .next (run (.encFrame (plain (.text [0x61]))) (fed [0x81])) := ⟨rfl, rfl, rfl, rfl, rfl⟩

theorem witness_HeaderByteZeroRowsRecordFinAndOpcode :
    State.reset.dec.Ready ∧ State.reset.dec.dstate = .awaitFlags := ⟨⟨rfl, rfl, rfl⟩, rfl⟩

/-- The three rows at the ends of their ranges; the longest EXT64 length is kept as 2^32 − 1. -/
theorem witness_HeaderByteOneRowsRetainTheLength :
    (fed [0x82]).dec.Ready ∧ (fed [0x82]).dec.dstate = .awaitLen ∧
    (125 : BitVec 7).toNat ≤ 125 ∧ (125 : BitVec 7).toNat ≤ (fed [0x82]).params.bodyCapacity ∧
    (0xFFFF : BitVec 16).toNat ≤ (fed [0x82]).params.bodyCapacity ∧
    (0xFFFFFFFFFFFFFFFF : BitVec 64).toNat % 2 ^ 32 ≤ (fed [0x82]).params.bodyCapacity := by
  unfold Dec.Ready; decide

theorem witness_ReservedRowsAndTagsAreStuck :
    stuck.dec.dstate.isReserved = true ∧ decoderOperation .decEnd = true := by decide

theorem witness_AfterEndEveryOperationIsRefused :
    (run .decEnd State.reset).dec.dstate.isReserved = false ∧
    (run .decEnd State.reset).dec.dfault = false ∧ (run .decEnd State.reset).dec.ended = true ∧
    decoderOperation (.uopBody 0) = true ∧ (run .encEnd State.reset).enc.eended = true ∧
    encoderOperation (.encFrame (plain .invalid)) = true := by decide

theorem witness_CapacityFaultIsSticky :
    (small [0x81, 0x05]).dec.dstate.isReserved = false ∧ (small [0x81, 0x05]).dec.dfault = true ∧
    decoderOperation .decEnd = true := by decide

/-- The four errors, in the order of the statement. -/
theorem witness_ErrorsArePrecise :
    exec .decInvalid (fed [0x81]) = .next (run .decInvalid (fed [0x81])) ∧
    lastStatus (run .decInvalid (fed [0x81])) = some .invalidInput ∧
    lastStatus (run (.encFrame ⟨none, .absent, some true, .binary [1], none⟩) State.reset) =
      some .unsupported ∧
    lastStatus (run .encEnd (run .encEnd State.reset)) = some .afterEnd ∧
    (small [0x81, 0x05]).dec.dfault = true ∧
    lastStatus (run .decEnd (small [0x81, 0x05])) = some .capacityExceeded :=
  ⟨rfl, by decide, by decide, by decide, by decide, by decide⟩

/-- Vector Q2's first Feed. -/
theorem witness_FirstCapacityFaultKeepsEarlierBytes :
    (small []).dec.Ready ∧
    exec (.decFeed [0x82, 0x03, 1, 2, 3, 0x81, 0x05, 0xAA]) (small []) =
      .next (run (.decFeed [0x82, 0x03, 1, 2, 3, 0x81, 0x05, 0xAA]) (small [])) ∧
    (run (.decFeed [0x82, 0x03, 1, 2, 3, 0x81, 0x05, 0xAA]) (small [])).responses =
      (small []).responses ++ [⟨.dec, .capacityExceeded, .bodyLength 5⟩] ∧
    (run (.decFeed [0x82, 0x03, 1, 2, 3, 0x81, 0x05, 0xAA]) (small [])).dec.dout =
      [.frame ⟨true, 2, false, .binary, [1, 2, 3]⟩] :=
  ⟨⟨rfl, rfl, rfl⟩, rfl, by decide, by decide⟩

/-- One operation of each unit, and the two constructions. -/
theorem witness_UnitsShareNothing :
    exec (.decFeed [0x81, 0x00]) State.reset = .next (fed [0x81, 0x00]) ∧
    decoderOperation (.decFeed [0x81, 0x00]) = true ∧
    exec .encEnd State.reset = .next (run .encEnd State.reset) ∧
    encoderOperation .encEnd = true ∧
    exec .decReset (fed [0x81]) = .next (run .decReset (fed [0x81])) ∧
    exec .encReset (fed [0x81]) = .next (run .encReset (fed [0x81])) :=
  ⟨rfl, rfl, rfl, rfl, rfl, rfl⟩

theorem witness_DecoderDependsOnItselfOnly :
    decoderOperation (.decFeed [0x00]) = true ∧
    (fed [0x81]).dec = ({ fed [0x81] with enc := ⟨true, [.sentinel]⟩ } : State).dec ∧
    exec (.decFeed [0x00]) (fed [0x81]) = .next (run (.decFeed [0x00]) (fed [0x81])) :=
  ⟨rfl, rfl, rfl⟩

theorem witness_EveryOperationReturnsOneStatus :
    exec .decEnd State.reset = .next (run .decEnd State.reset) ∧ decoderOperation .decEnd = true ∧
    exec .encEnd State.reset = .next (run .encEnd State.reset) ∧
    encoderOperation .encEnd = true := ⟨rfl, rfl, rfl, rfl⟩

/-- Each flag moves somewhere. -/
theorem witness_OnlyEndAndConstructionMoveTheEndFlags :
    (run .decEnd State.reset).dec.ended ≠ State.reset.dec.ended ∧
    (run .encEnd State.reset).enc.eended ≠ State.reset.enc.eended ∧
    (run (.decFeed [0x05]) (small [0x81])).dec.dfault ≠ (small [0x81]).dec.dfault ∧
    (run .decReset (small [0x81, 0x05])).dec.dfault ≠ (small [0x81, 0x05]).dec.dfault := by decide

/-- A decoder in the middle of a payload, with a frame behind it, and what its next byte leaves. -/
theorem witness_EveryStepKeepsTheInvariant :
    ({ fed [0x82, 0x00, 0x81, 0x02, 0x68] with input := [.byte 0x69] } : State).Inv ∧
    step { fed [0x82, 0x00, 0x81, 0x02, 0x68] with input := [.byte 0x69] } =
      .next (run (.uopBody 0x69) (fed [0x82, 0x00, 0x81, 0x02, 0x68])) := by
  refine ⟨⟨⟨rfl, by decide, by decide, fun _ => ⟨rfl, by decide, by decide, rfl⟩⟩, ?_, ?_, ?_, ?_⟩,
    rfl⟩
  · show DecEvent.sentinel ∉ [DecEvent.frame ⟨true, 2, false, .binary, []⟩]
    decide
  · intro r hr
    replace hr : DecEvent.frame r ∈ [DecEvent.frame ⟨true, 2, false, .binary, []⟩] := hr
    simp only [List.mem_singleton, DecEvent.frame.injEq] at hr
    subst hr
    exact ⟨by decide, by decide, by decide⟩
  · show EncEvent.sentinel ∉ ([] : List EncEvent)
    decide
  · intro bs hbs
    exact absurd hbs List.not_mem_nil

/-- The decoder between header byte 0 and header byte 1, with something at the input. -/
def waiting (ins : List Input) : State := { fed [0x81] with input := ins }

theorem waiting_inv (ins : List Input) : (waiting ins).Inv :=
  ⟨⟨rfl, fun h => Bool.false_ne_true h.1, Nat.zero_le _, fun _ => ⟨rfl, rfl, rfl, rfl, rfl⟩⟩,
    List.not_mem_nil, fun _ h => absurd h List.not_mem_nil, List.not_mem_nil,
    fun _ h => absurd h List.not_mem_nil⟩

/-- A byte and a token at the input of a state of the invariant, and a raw selector word that is
stopped there. -/
theorem witness_InvariantStatesTakeEveryToken :
    (waiting [.byte 0x69]).Inv ∧ (waiting [.byte 0x69]).input = .byte 0x69 :: [] ∧
    (waiting [.word (.encToken 1 none)]).Inv ∧
    (waiting [.word (.encToken 1 none)]).input = .word (.encToken 1 none) :: [] ∧
    decode (.encToken 1 none) = .ok .encEnd ∧ encoderOperation .encEnd = true ∧
    (waiting [.word (.uop 0x400)]).Inv ∧
    faultOf (step (waiting [.word (.uop 0x400)])) = some .notSelected :=
  ⟨waiting_inv _, rfl, waiting_inv _, rfl, rfl, rfl, waiting_inv _, rfl⟩

theorem witness_ChunkBoundariesDoNotMatter :
    (fed [0x81]).dec.Inv (fed [0x81]).params.bodyCapacity ∧ (fed [0x81]).dec.Ready ∧
    ([[0x01], [], [0x68]] : List Bytes).flatten = ([[0x01, 0x68]] : List Bytes).flatten :=
  ⟨⟨rfl, by decide, by decide, fun _ => ⟨rfl, rfl, rfl, rfl, rfl⟩⟩, ⟨rfl, rfl, rfl⟩, rfl⟩

theorem witness_DecoderEmitsWhatParseFrameReads :
    State.reset.dec.Ready ∧ State.reset.dec.dstate = .awaitFlags ∧ State.reset.dec.PhaseInv ∧
    2 ^ 32 - 1 ≤ State.reset.params.bodyCapacity ∧
    parseFrame [0x82, 0x00, 0x81] = some (⟨true, 2, false, .binary, []⟩, [0x81]) ∧
    parseFrame [0x82, 0x7E, 0x00] = none :=
  ⟨⟨rfl, rfl, rfl⟩, rfl, ⟨rfl, rfl, rfl, rfl, rfl, rfl, rfl⟩, by decide, by decide, by decide⟩

theorem witness_EncodedFrameRoundTrips :
    State.reset.enc.eended = false ∧ State.reset.dec.Ready ∧
    State.reset.dec.dstate = .awaitFlags ∧ State.reset.dec.PhaseInv ∧
    ([0x61] : Bytes).length ≤ State.reset.params.bodyCapacity ∧
    exec (.encFrame (plain (.text [0x61]))) State.reset =
      .next (run (.encFrame (plain (.text [0x61]))) State.reset) ∧
    (run (.encFrame (plain (.text [0x61]))) State.reset).responses =
      State.reset.responses ++ [⟨.enc, .ok, .nothing⟩] ∧
    (run (.encFrame (plain (.text [0x61]))) State.reset).enc.eout =
      State.reset.enc.eout ++ [.chunk [0x81, 0x01], .chunk [0x61]] ∧
    ([[0x81], [0x01, 0x61]] : List Bytes).flatten =
      chunkBytes [.chunk [0x81, 0x01], .chunk [0x61]] :=
  ⟨rfl, ⟨rfl, rfl, rfl⟩, rfl, ⟨rfl, rfl, rfl, rfl, rfl, rfl, rfl⟩, by decide, rfl, by decide,
    by decide, rfl⟩

end Sys2Proof.Tests
end

/-! PROOFS. One step is fetch, decode, exec (O2); no operation reaches the other unit, the parameters
or the pending input, and both output streams only grow (O39). -/

namespace Sys2Proof.Machine

/-! ### One step -/

theorem State.fetch_of_word {s : State} {p : PortWord} {rest : List Input}
    (h : s.input = .word p :: rest) : s.fetch = some p := by
  simp only [State.fetch, h]

theorem State.fetch_of_byte {s : State} {b : Byte} {rest : List Input}
    (h : s.input = .byte b :: rest) : s.fetch = some (.uop (selector s.dec.dstate b)) := by
  simp only [State.fetch, h]

theorem State.fetch_of_nil {s : State} (h : s.input = []) : s.fetch = none := by
  simp only [State.fetch, h]

theorem State.advance_of_cons {s : State} {x : Input} {rest : List Input}
    (h : s.input = x :: rest) : s.advance = { s with input := rest } := by
  simp only [State.advance, h, List.tail_cons]

theorem step_of_fetch_none {s : State} (h : s.fetch = none) : step s = .next s := by
  simp only [step, h]

theorem step_of_decode_ok {s : State} {p : PortWord} {i : Instr} (hf : s.fetch = some p)
    (hd : decode p = .ok i) : step s = exec i s.advance := by
  simp only [step, hf, hd]

theorem step_of_decode_error {s : State} {p : PortWord} {e : DecodeError} (hf : s.fetch = some p)
    (hd : decode p = .error e) : step s = .refused (.badWord e) := by
  simp only [step, hf, hd]

/-- `dstate<<8 | b` is the tag's three bits in front of the byte's eight (R95). -/
theorem selector_eq_append (t : Tag) (b : Byte) : selector t b = t.code ++ b := by
  simp only [selector, selectorWord, BitVec.append_def, BitVec.shiftLeftZeroExtend_eq,
    BitVec.setWidth'_eq]

/-- Settles O2: each clause is what the fetch answers for that head of the input, then what `step`
does with a word that decodes or does not. -/
theorem stepRunsTheDecodedInstruction : Obligations.StepRunsTheDecodedInstruction := by
  refine ⟨fun s p rest i hin hd _ => ?word, fun s b rest i hin hd _ => ?byte,
    fun s p rest e hin hd => ?rejected, fun s hin => ?idle⟩
  case word =>
    rw [step_of_decode_ok (State.fetch_of_word hin) hd, State.advance_of_cons hin]
  case byte =>
    rw [← selector_eq_append] at hd
    rw [step_of_decode_ok (State.fetch_of_byte hin) hd, State.advance_of_cons hin]
  case rejected => exact step_of_decode_error (State.fetch_of_word hin) hd
  case idle => exact step_of_fetch_none (State.fetch_of_nil hin)

/-! ### Micro-steps only append to DOUT -/

/-- Whatever a micro-step writes, DOUT is only appended to (R34). -/
def Micro.GrowsDout (d : Dec) : Micro → Prop
  | .done d' => d.dout <+: d'.dout
  | .raised d' _ _ => d.dout <+: d'.dout
  | .stopped _ => True

theorem Micro.Keeps.growsDout {cap : Nat} {d : Dec} {m : Micro} (h : m.Keeps cap d) :
    m.GrowsDout d := by
  cases m with
  | done d' =>
    obtain ⟨-, -, -, ho | ⟨r, ho, -⟩⟩ := h
    · rw [Micro.GrowsDout, ho]
    · exact ⟨[.frame r], ho.symm⟩
  | raised d' st info =>
    obtain ⟨-, -, -, -, ho, -⟩ := h
    rw [Micro.GrowsDout, ho]
  | stopped r => trivial

theorem Micro.GrowsDout.trans {d d' : Dec} {m : Micro} (h : d.dout <+: d'.dout)
    (h' : m.GrowsDout d') : m.GrowsDout d := by
  cases m with
  | done e => exact List.IsPrefix.trans h h'
  | raised e st info => exact List.IsPrefix.trans h h'
  | stopped r => trivial

theorem feedBytes_growsDout (cap : Nat) (bs : Bytes) (d : Dec) :
    (feedBytes cap bs d).GrowsDout d := by
  induction bs generalizing d with
  | nil => exact List.prefix_rfl
  | cons b bs ih =>
    have hb := (byteStep_keeps cap b d).growsDout
    simp only [feedBytes]
    split <;> rename_i hm <;> rw [hm] at hb
    · exact (ih _).trans hb
    · exact hb
    · trivial

theorem whenSelected_growsDout {t : Tag} {op : Dec → Micro} {d : Dec}
    (h : d.dstate = t → (op d).GrowsDout d) : (whenSelected t op d).GrowsDout d := by
  unfold whenSelected
  split
  · exact h ‹_›
  · trivial

/-! ### The encoder's arms of the dispatch -/

theorem exec_encFrame (f : FrameIn) (s : State) : exec (.encFrame f) s = execEncFrame f s := rfl

theorem exec_encEnd (s : State) : exec .encEnd s = execEncEnd s := rfl

/-! ### The kinds of instructions -/

theorem uLenShort_keeps (cap : Nat) (m : Bool) (l : BitVec 7) (d : Dec) :
    (uLenShort cap m l d).Keeps cap d :=
  enterPayload_keeps rfl rfl rfl rfl rfl rfl rfl

/-- A micro-operation row runs, in the state that selects it, an operation that does what one byte
may do (R93, R104). -/
theorem exec_of_microOperationTag {i : Instr} {t : Tag} (h : microOperationTag i = some t) :
    ∃ op : Nat → Dec → Micro,
      (∀ s, exec i s = s.decOp (whenSelected t (op s.params.bodyCapacity))) ∧
      ∀ cap d, d.dstate = t → (op cap d).Keeps cap d := by
  cases i <;> cases h
  case uopFlags b => exact ⟨fun _ => uFlags b, fun _ => rfl, fun cap d _ => uFlags_keeps cap b d⟩
  case uopLenShort m l =>
    exact ⟨fun cap => uLenShort cap m l, fun _ => rfl, fun cap d _ => uLenShort_keeps cap m l d⟩
  case uopLenExt16 m =>
    exact ⟨fun _ => uLenExt16 m, fun _ => rfl, fun _ _ _ => ⟨rfl, rfl, rfl, .inl rfl⟩⟩
  case uopLenExt64 m =>
    exact ⟨fun _ => uLenExt64 m, fun _ => rfl, fun _ _ _ => ⟨rfl, rfl, rfl, .inl rfl⟩⟩
  case uopExtLen b =>
    exact ⟨fun cap => uExtLen cap b, fun _ => rfl,
      fun cap d hd => uExtLen_keeps cap b d (by rw [hd]; rfl)⟩
  case uopKey b =>
    exact ⟨fun cap => uKey cap b, fun _ => rfl,
      fun cap d hd => uKey_keeps cap b d (by rw [hd]; rfl)⟩
  case uopBody b =>
    exact ⟨fun _ => uBody b, fun _ => rfl,
      fun cap d hd => storeBody_keeps cap b d (by rw [hd]; rfl)⟩
  case uopMaskedBody b =>
    exact ⟨fun _ => uMaskedBody b, fun _ => rfl,
      fun cap d hd => storeBody_keeps cap _ d (by rw [hd]; rfl)⟩

/-- An operation of the decoder is End, an invalid token, a micro-operation row, or the Feed of some
bytes (R81, R92, log entries 6 and 7). -/
theorem decoderOperation_cases {i : Instr} (h : decoderOperation i = true) :
    i = .decEnd ∨ i = .decInvalid ∨ (∃ t, microOperationTag i = some t) ∨
      ∃ chunk, ∀ s, exec i s = s.feed chunk := by
  cases i
  case decEnd => exact .inl rfl
  case decInvalid => exact .inr (.inl rfl)
  case uopFlags | uopLenShort | uopLenExt16 | uopLenExt64 | uopExtLen | uopKey | uopBody
      | uopMaskedBody => exact .inr (.inr (.inl ⟨_, rfl⟩))
  case decReset | uopReserved6 | uopReserved7 | encFrame | encEnd | encKindReserved
      | encReset => cases h
  all_goals exact .inr (.inr (.inr ⟨_, fun _ => rfl⟩))

/-- An instruction that answers a next state is an operation or the construction of one unit. -/
theorem exec_next_kind {i : Instr} {s t : State} (h : exec i s = .next t) :
    (decoderOperation i = true ∨ i = .decReset) ∨ encoderOperation i = true ∨ i = .encReset := by
  cases i
  case decReset => exact .inl (.inr rfl)
  case encFrame | encEnd => exact .inr (.inl rfl)
  case encReset => exact .inr (.inr rfl)
  case encKindReserved | uopReserved6 | uopReserved7 => cases h
  all_goals exact .inl (.inl rfl)

/-! ### What an operation of one unit leaves -/

/-- A decoder operation writes the decoder and returns a status, and nothing else. -/
theorem State.decOp_frame {s t : State} {op : Dec → Micro} (h : s.decOp op = .next t) :
    t.enc = s.enc ∧ t.params = s.params ∧ t.input = s.input := by
  obtain ⟨-, rfl⟩ | ⟨-, -, rfl⟩ | ⟨-, d, -, rfl⟩ | ⟨-, d, st, info, -, rfl⟩ := State.decOp_cases h <;>
    exact ⟨rfl, rfl, rfl⟩

theorem State.decOp_growsDout {s t : State} {op : Dec → Micro} (hop : (op s.dec).GrowsDout s.dec)
    (h : s.decOp op = .next t) : s.dec.dout <+: t.dec.dout := by
  obtain ⟨-, rfl⟩ | ⟨-, -, rfl⟩ | ⟨-, d, hd, rfl⟩ | ⟨-, d, st, info, hd, rfl⟩ :=
    State.decOp_cases h
  · exact List.prefix_rfl
  · exact List.prefix_rfl
  · rw [hd] at hop; exact hop
  · rw [hd] at hop; exact hop

/-- An encoder operation writes the encoder and returns a status, and nothing else. -/
theorem State.encOp_frame {s t : State} {op : Enc → Except (Status × Info) Enc}
    (h : s.encOp op = .next t) : t.dec = s.dec ∧ t.params = s.params ∧ t.input = s.input := by
  obtain ⟨-, rfl⟩ | ⟨-, e, -, rfl⟩ | ⟨-, st, info, -, rfl⟩ := State.encOp_cases h <;>
    exact ⟨rfl, rfl, rfl⟩

theorem State.encOp_growsEout {s t : State} {op : Enc → Except (Status × Info) Enc}
    (hop : ∀ e, op s.enc = .ok e → s.enc.eout <+: e.eout) (h : s.encOp op = .next t) :
    s.enc.eout <+: t.enc.eout := by
  obtain ⟨-, rfl⟩ | ⟨-, e, he, rfl⟩ | ⟨-, st, info, -, rfl⟩ := State.encOp_cases h
  · exact List.prefix_rfl
  · exact hop e he
  · exact List.prefix_rfl

section
variable {i : Instr} {s t : State}

theorem exec_decoderOperation_frame (hi : decoderOperation i = true) (h : exec i s = .next t) :
    t.enc = s.enc ∧ t.params = s.params ∧ t.input = s.input := by
  obtain ⟨op, hop⟩ := exec_decoderOperation hi
  exact State.decOp_frame (hop s ▸ h)

theorem exec_decoderOperation_growsDout (hi : decoderOperation i = true)
    (h : exec i s = .next t) : s.dec.dout <+: t.dec.dout := by
  obtain rfl | rfl | ⟨g, hg⟩ | ⟨chunk, hc⟩ := decoderOperation_cases hi
  · exact State.decOp_growsDout (op := fun d => .done (d.push .sentinel).setEnded)
      (List.prefix_append _ _) h
  · exact State.decOp_growsDout (op := fun d => .raised d .invalidInput .token) List.prefix_rfl h
  · obtain ⟨op, hexec, hkeeps⟩ := exec_of_microOperationTag hg
    exact State.decOp_growsDout (whenSelected_growsDout fun hd => (hkeeps _ _ hd).growsDout)
      (hexec s ▸ h)
  · exact State.decOp_growsDout (feedBytes_growsDout _ chunk _) (hc s ▸ h)

theorem exec_encoderOperation_frame (hi : encoderOperation i = true) (h : exec i s = .next t) :
    t.dec = s.dec ∧ t.params = s.params ∧ t.input = s.input := by
  cases i <;> cases hi
  case encFrame f =>
    rw [exec_encFrame, execEncFrame] at h
    exact State.encOp_frame h
  case encEnd =>
    rw [exec_encEnd, execEncEnd] at h
    exact State.encOp_frame h

theorem exec_encoderOperation_growsEout (hi : encoderOperation i = true)
    (h : exec i s = .next t) : s.enc.eout <+: t.enc.eout := by
  cases i <;> cases hi
  case encFrame f =>
    rw [exec_encFrame, execEncFrame] at h
    refine State.encOp_growsEout (fun e he => ?_) h
    split at he <;> cases he
    exact List.prefix_append _ _
  case encEnd =>
    rw [exec_encEnd, execEncEnd] at h
    refine State.encOp_growsEout (fun e he => ?_) h
    cases he
    exact List.prefix_append _ _

/-- R3: the decoder's operations and its construction leave the encoder, and what no instruction
changes. -/
theorem exec_decoder_frame (hi : decoderOperation i = true ∨ i = .decReset)
    (h : exec i s = .next t) : t.enc = s.enc ∧ t.params = s.params ∧ t.input = s.input := by
  obtain hi | rfl := hi
  · exact exec_decoderOperation_frame hi h
  · cases h; exact ⟨rfl, rfl, rfl⟩

/-- R3: the encoder's operations and its construction leave the decoder, and what no instruction
changes. -/
theorem exec_encoder_frame (hi : encoderOperation i = true ∨ i = .encReset)
    (h : exec i s = .next t) : t.dec = s.dec ∧ t.params = s.params ∧ t.input = s.input := by
  obtain hi | rfl := hi
  · exact exec_encoderOperation_frame hi h
  · cases h; exact ⟨rfl, rfl, rfl⟩

end

/-- Settles O39: every instruction that answers a next state belongs to one unit, whose frame lemma
gives the other unit, the parameters and the input; the unit's own stream grows by its operations. -/
theorem unitsShareNothing : Obligations.UnitsShareNothing := by
  intro s t i h
  have hkind := exec_next_kind h
  obtain ⟨hparams, hinput⟩ : t.params = s.params ∧ t.input = s.input :=
    hkind.elim (fun hi => (exec_decoder_frame hi h).2) (fun hi => (exec_encoder_frame hi h).2)
  refine ⟨hparams, hinput, fun hi => (exec_decoder_frame hi h).1,
    fun hi => (exec_encoder_frame hi h).1, fun hne => ?dout, fun hne => ?eout⟩
  case dout =>
    obtain (hi | hi) | hi := hkind
    · exact exec_decoderOperation_growsDout hi h
    · exact absurd hi hne
    · rw [(exec_encoder_frame hi h).1]
  case eout =>
    obtain hi | hi | hi := hkind
    · rw [(exec_decoder_frame hi h).1]
    · exact exec_encoderOperation_growsEout hi h
    · exact absurd hi hne

end Sys2Proof.Machine

/-! PROOFS. Every step keeps the machine's invariant (O44); what the sticky flags refuse (O36), what
one operation returns (O41), and who moves the sticky flags (O42). -/

namespace Sys2Proof.Machine

/-! ### What the decoder accepts is well-formed -/

theorem decodeDecToken_wellFormed {k : BitVec 2} {chunk : Bytes} {i : Instr}
    (h : decodeDecToken k chunk = .ok i) : i.wellFormed = true := by
  unfold decodeDecToken at h
  repeat' split at h
  all_goals cases h
  all_goals rfl

theorem decodeEncToken_wellFormed {k : BitVec 2} {f : Option FrameIn} {i : Instr}
    (h : decodeEncToken k f = .ok i) : i.wellFormed = true := by
  unfold decodeEncToken at h
  repeat' split at h
  all_goals cases h
  · assumption
  · rfl
  · rfl
  · rfl

theorem decodeUop_wellFormed (w : BitVec 11) : (decodeUop w).wellFormed = true := by
  unfold decodeUop
  split
  case h_2 =>
    unfold decodeLenByte
    repeat' split
    · assumption
    · rfl
    · rfl
  all_goals rfl

theorem decodeHdr1_wellFormed {b : Byte} {ext : Bytes} {i : Instr}
    (h : decodeHdr1 b ext = .ok i) : i.wellFormed = true := by
  unfold decodeHdr1 at h
  repeat' split at h
  all_goals cases h
  · assumption
  · rfl
  · rfl

theorem decodeOpcodeByte_wellFormed (b : Byte) : (decodeOpcodeByte b).wellFormed = true := by
  unfold decodeOpcodeByte
  split <;> rfl

/-- A word that decodes is an instruction of the table, with the conditions its row carries. -/
theorem decode_wellFormed {p : PortWord} {i : Instr} (h : decode p = .ok i) :
    i.wellFormed = true := by
  cases p with
  | decToken k chunk => exact decodeDecToken_wellFormed h
  | encToken k f => exact decodeEncToken_wellFormed h
  | uop w => cases h; exact decodeUop_wellFormed w
  | hdr0 b => cases h; rfl
  | hdr1 b ext => exact decodeHdr1_wellFormed h
  | opcodeByte b => cases h; exact decodeOpcodeByte_wellFormed b

/-! ### A micro-operation row is the dispatch of its byte -/

theorem whenSelected_congr {t : Tag} {f g : Dec → Micro} (h : ∀ d, d.dstate = t → f d = g d) :
    whenSelected t f = whenSelected t g := by
  funext d
  unfold whenSelected
  split
  · exact h d ‹_›
  · rfl

/-- In AWAIT_LEN, header byte 1 runs the row that its LEN7 selects (R93). -/
theorem byteStep_hdr1Byte (cap : Nat) (m : Bool) (l : BitVec 7) {d : Dec}
    (h : d.dstate = .awaitLen) :
    byteStep cap (hdr1Byte m l) d =
      if l.toNat ≤ 125 then uLenShort cap m l d
      else if l = 126 then uLenExt16 m d else uLenExt64 m d := by
  rw [byteStep_awaitLen cap _ h, uLen, bits6to0_hdr1Byte, bit7_hdr1Byte]

/-- In the state that selects it, a well-formed micro-operation row does what ByteStep does with some
byte (R93, R104). -/
theorem exec_microOperation_eq_byteStep {i : Instr} {t : Tag} (hw : i.wellFormed = true)
    (h : microOperationTag i = some t) :
    ∃ b, ∀ s, exec i s = s.decOp (whenSelected t (byteStep s.params.bodyCapacity b)) := by
  cases i <;> cases h
  case uopFlags b =>
    exact ⟨b, fun s => congrArg s.decOp
      (whenSelected_congr fun _ hd => (byteStep_awaitFlags _ b hd).symm)⟩
  case uopLenShort m l =>
    have hl : l.toNat ≤ 125 := of_decide_eq_true hw
    refine ⟨hdr1Byte m l, fun s => congrArg s.decOp (whenSelected_congr fun d hd => ?_)⟩
    rw [byteStep_hdr1Byte _ m l hd, if_pos hl]
  case uopLenExt16 m =>
    exact ⟨hdr1Byte m 126, fun s => congrArg s.decOp
      (whenSelected_congr fun _ hd => (byteStep_hdr1Byte _ m 126 hd).symm)⟩
  case uopLenExt64 m =>
    exact ⟨hdr1Byte m 127, fun s => congrArg s.decOp
      (whenSelected_congr fun _ hd => (byteStep_hdr1Byte _ m 127 hd).symm)⟩
  case uopExtLen b =>
    exact ⟨b, fun s => congrArg s.decOp
      (whenSelected_congr fun _ hd => (byteStep_awaitExtLen _ b hd).symm)⟩
  case uopKey b =>
    exact ⟨b, fun s => congrArg s.decOp
      (whenSelected_congr fun _ hd => (byteStep_awaitKey _ b hd).symm)⟩
  case uopBody b =>
    exact ⟨b, fun s => congrArg s.decOp
      (whenSelected_congr fun _ hd => (byteStep_awaitBody _ b hd).symm)⟩
  case uopMaskedBody b =>
    exact ⟨b, fun s => congrArg s.decOp
      (whenSelected_congr fun _ hd => (byteStep_awaitMaskedBody _ b hd).symm)⟩

/-! ### The sentinel of a stream (R61, R173) -/

section
variable {α : Type} {a : α} {stream : List α}

theorem SentinelLast.append {xs : List α} (h : SentinelLast a false stream) (hx : a ∉ xs) :
    SentinelLast a false (stream ++ xs) :=
  List.not_mem_append h hx

theorem SentinelLast.close (h : SentinelLast a false stream) :
    SentinelLast a true (stream ++ [a]) :=
  ⟨stream, rfl, h⟩

end

/-! ### The decoder's part of the invariant -/

/-- The decoder's part of `State.Inv`: R40, the sentinel of DOUT, and proper records. -/
structure Dec.Good (cap : Nat) (d : Dec) : Prop where
  inv : d.Inv cap
  dout : SentinelLast DecEvent.sentinel d.ended d.dout
  records : ∀ r, DecEvent.frame r ∈ d.dout → r.Proper cap

/-- The decoder that a micro-step leaves, if it leaves one, meets the decoder's invariant. -/
def Micro.LeavesGood (cap : Nat) : Micro → Prop
  | .done d => d.Good cap
  | .raised d _ _ => d.Good cap
  | .stopped _ => True

theorem Dec.Good.reset (cap : Nat) : Dec.reset.Good cap :=
  ⟨⟨rfl, fun h => Bool.false_ne_true h.1, Nat.zero_le _, fun _ => sessionReset_phase Dec.reset⟩,
    List.not_mem_nil, fun _ h => absurd h List.not_mem_nil⟩

section
variable {cap : Nat} {d d' : Dec}

theorem Dec.Good.phase (h : d.Good cap) (hr : d.Ready) : d.PhaseInv :=
  h.inv.phase hr.2.1

/-- Frames appended to DOUT before End leave the sentinel and the records as they must be. -/
theorem Dec.Good.append_frames {rs : List Frame} (h : d.Good cap) (hended : d.ended = false)
    (hinv : d'.Inv cap) (hended' : d'.ended = d.ended) (hdout : d'.dout = d.dout ++ rs.map .frame)
    (hrs : ∀ r ∈ rs, r.Proper cap) : d'.Good cap := by
  refine ⟨hinv, ?dout, fun r hr => ?records⟩
  case dout =>
    have hopen := h.dout
    rw [hended] at hopen
    rw [hended', hended, hdout]
    exact hopen.append (by simp)
  case records =>
    rw [hdout, List.mem_append] at hr
    exact hr.elim (h.records r) fun hr => hrs r (by simpa using hr)

/-- End forwards the sentinel and sets `ended` (R103). -/
theorem Dec.Good.close (h : d.Good cap) (hr : d.Ready) : (d.push .sentinel).setEnded.Good cap := by
  obtain ⟨-, hfault, hended⟩ := hr
  refine ⟨⟨h.inv.legal, fun hf => ?oneFlag, h.inv.buffer, h.inv.phase⟩, ?dout, fun r hr => ?records⟩
  case oneFlag => exact Bool.false_ne_true (hfault.symm.trans hf.2)
  case dout =>
    have hopen := h.dout
    rw [hended] at hopen
    exact hopen.close
  case records => exact h.records r (by simpa using hr)

/-- What a Feed may do keeps the decoder's invariant. -/
theorem Micro.FeedKept.leavesGood {m : Micro} (hm : m.FeedKept cap d) (h : d.Good cap)
    (hr : d.Ready) : m.LeavesGood cap := by
  obtain ⟨-, -, hended⟩ := hr
  cases m with
  | done d' =>
    obtain ⟨hphase, hbuffer, hlegal, -, hended', rs, hdout, hrs⟩ := hm
    have hinv : d'.Inv cap := ⟨hlegal, by simp [hended', hended], hbuffer, fun _ => hphase⟩
    exact h.append_frames hended hinv hended' hdout hrs
  | raised d' st info =>
    obtain ⟨hbuffer, hlegal, hfault', hended', -, rs, hdout, hrs⟩ := hm
    have hinv : d'.Inv cap := ⟨hlegal, by simp [hended', hended], hbuffer, by simp [hfault']⟩
    exact h.append_frames hended hinv hended' hdout hrs
  | stopped r => trivial

theorem whenSelected_leavesGood {t : Tag} {op : Dec → Micro} (h : (op d).LeavesGood cap) :
    (whenSelected t op d).LeavesGood cap := by
  unfold whenSelected
  split
  · exact h
  · trivial

end

/-- A decoder operation keeps the decoder's invariant when what it runs on a decoder that takes
tokens does. -/
theorem State.decOp_good {s t : State} {op : Dec → Micro} {cap : Nat} (hs : s.dec.Good cap)
    (hop : s.dec.Ready → (op s.dec).LeavesGood cap) (h : s.decOp op = .next t) :
    t.dec.Good cap := by
  obtain ⟨-, rfl⟩ | ⟨-, -, rfl⟩ | ⟨hr, d, hd, rfl⟩ | ⟨hr, d, st, info, hd, rfl⟩ :=
    State.decOp_cases h
  · exact hs
  · exact hs
  · have hd' := hop hr; rw [hd] at hd'; exact hd'
  · have hd' := hop hr; rw [hd] at hd'; exact hd'

theorem exec_decoderOperation_good {i : Instr} {s t : State} (hw : i.wellFormed = true)
    (hi : decoderOperation i = true) (hs : s.dec.Good s.params.bodyCapacity)
    (h : exec i s = .next t) : t.dec.Good s.params.bodyCapacity := by
  obtain rfl | rfl | ⟨tag, htag⟩ | ⟨chunk, hchunk⟩ := decoderOperation_cases hi
  · exact State.decOp_good (op := fun d => .done (d.push .sentinel).setEnded) hs hs.close h
  · exact State.decOp_good (op := fun d => .raised d .invalidInput .token) hs (fun _ => hs) h
  · obtain ⟨b, hb⟩ := exec_microOperation_eq_byteStep hw htag
    refine State.decOp_good hs (fun hr => whenSelected_leavesGood ?_) (hb s ▸ h)
    exact (byteStep_kept b (hs.phase hr) hs.inv.buffer hr.1).leavesGood hs hr
  · refine State.decOp_good hs (fun hr => ?_) (hchunk s ▸ h)
    exact (feedBytes_kept chunk (hs.phase hr) hs.inv.buffer hr.1).leavesGood hs hr

/-! ### The encoder's part of the invariant -/

/-- The encoder's part of `State.Inv`: the sentinel of EOUT, and no empty chunk (R84). -/
structure Enc.Good (e : Enc) : Prop where
  eout : SentinelLast EncEvent.sentinel e.eended e.eout
  chunks : ∀ bs, EncEvent.chunk bs ∈ e.eout → bs ≠ []

theorem Enc.Good.reset : Enc.reset.Good :=
  ⟨List.not_mem_nil, fun _ h => absurd h List.not_mem_nil⟩

/-- A frame is a header chunk and at most one payload chunk, neither empty (R149). -/
theorem mem_frameChunks {finb : Bool} {op : BitVec 4} {key : Option Key} {bytes : Bytes}
    {ev : EncEvent} (h : ev ∈ frameChunks finb op key bytes) :
    ∃ bs, ev = .chunk bs ∧ bs ≠ [] := by
  unfold frameChunks at h
  obtain rfl | h := List.mem_cons.mp h
  · exact ⟨_, rfl, by simp [header]⟩
  · split at h
    · rename_i hlen
      rw [List.mem_singleton] at h
      refine ⟨_, h, List.ne_nil_of_length_pos ?_⟩
      rwa [wirePayload_length]
    · exact absurd h List.not_mem_nil

section
variable {e : Enc}

/-- Non-empty chunks appended to EOUT before End (R142). -/
theorem Enc.Good.push {evs : List EncEvent} (h : e.Good) (hended : e.eended = false)
    (hevs : ∀ ev ∈ evs, ∃ bs, ev = .chunk bs ∧ bs ≠ []) : (e.push evs).Good := by
  refine ⟨?eout, fun bs hbs => ?chunks⟩
  case eout =>
    have hopen := h.eout
    rw [hended] at hopen
    rw [Enc.push_eended, hended]
    refine hopen.append fun hmem => ?_
    obtain ⟨bs, hbs, -⟩ := hevs _ hmem
    cases hbs
  case chunks =>
    obtain hbs | hbs := List.mem_append.mp hbs
    · exact h.chunks bs hbs
    · obtain ⟨bs', heq, hne⟩ := hevs _ hbs
      cases heq
      exact hne

/-- End forwards the sentinel and sets `eended` (R141). -/
theorem Enc.Good.close (h : e.Good) (hended : e.eended = false) :
    (e.push [.sentinel]).setEnded.Good := by
  have hopen := h.eout
  rw [hended] at hopen
  exact ⟨hopen.close, fun bs hbs => h.chunks bs (by simpa using hbs)⟩

end

/-- An encoder operation keeps the encoder's invariant when what it runs before End does. -/
theorem State.encOp_good {s t : State} {op : Enc → Except (Status × Info) Enc} (hs : s.enc.Good)
    (hop : s.enc.eended = false → ∀ e, op s.enc = .ok e → e.Good) (h : s.encOp op = .next t) :
    t.enc.Good := by
  obtain ⟨-, rfl⟩ | ⟨hended, e, he, rfl⟩ | ⟨-, st, info, -, rfl⟩ := State.encOp_cases h
  · exact hs
  · exact hop hended e he
  · exact hs

theorem exec_encoderOperation_good {i : Instr} {s t : State} (hi : encoderOperation i = true)
    (hs : s.enc.Good) (h : exec i s = .next t) : t.enc.Good := by
  cases i <;> cases hi
  case encFrame f =>
    rw [exec_encFrame, execEncFrame] at h
    refine State.encOp_good hs (fun hended e he => ?_) h
    split at he <;> cases he
    rename_i hevs
    obtain ⟨bytes, isText, op, key, -, -, -, rfl⟩ := encodeFrame_ok hevs
    exact hs.push hended fun _ => mem_frameChunks
  case encEnd =>
    rw [exec_encEnd, execEncEnd] at h
    refine State.encOp_good hs (fun hended e he => ?_) h
    cases he
    exact hs.close hended

/-! ### The machine's invariant -/

/-- The machine's invariant is the decoder's and the encoder's. -/
theorem State.inv_iff {s : State} :
    s.Inv ↔ s.dec.Good s.params.bodyCapacity ∧ s.enc.Good :=
  ⟨fun ⟨decoder, dout, records, eout, chunks⟩ => ⟨⟨decoder, dout, records⟩, eout, chunks⟩,
    fun ⟨⟨decoder, dout, records⟩, eout, chunks⟩ => ⟨decoder, dout, records, eout, chunks⟩⟩

/-- Every well-formed instruction keeps the invariant: its own unit's part by what the unit does,
the other unit's because it is left alone. -/
theorem exec_inv {i : Instr} {s t : State} (hw : i.wellFormed = true) (hs : s.Inv)
    (h : exec i s = .next t) : t.Inv := by
  rw [State.inv_iff] at hs ⊢
  obtain ⟨hdec, henc⟩ := hs
  obtain hi | hi := exec_next_kind h
  · obtain ⟨hframe, hparams, -⟩ := exec_decoder_frame hi h
    rw [hframe, hparams]
    refine ⟨?_, henc⟩
    obtain hi | rfl := hi
    · exact exec_decoderOperation_good hw hi hdec h
    · cases h; exact .reset _
  · obtain ⟨hframe, hparams, -⟩ := exec_encoder_frame hi h
    rw [hframe, hparams]
    refine ⟨hdec, ?_⟩
    obtain hi | rfl := hi
    · exact exec_encoderOperation_good hi henc h
    · cases h; exact .reset

/-- The invariant does not look at the input. -/
theorem State.Inv.advance {s : State} (h : s.Inv) : s.advance.Inv :=
  ⟨h.decoder, h.dout, h.records, h.eout, h.chunks⟩

/-- Settles O44: a step that answers a next state is idle, or runs a well-formed instruction on the
state whose input it has taken. -/
theorem everyStepKeepsTheInvariant : Obligations.EveryStepKeepsTheInvariant := by
  intro s t hs h
  cases hf : s.fetch with
  | none =>
    rw [step_of_fetch_none hf] at h
    cases h
    exact hs
  | some p =>
    cases hd : decode p with
    | error e =>
      rw [step_of_decode_error hf hd] at h
      cases h
    | ok i =>
      rw [step_of_decode_ok hf hd] at h
      exact exec_inv (decode_wellFormed hd) hs.advance h

/-! ### The capacity fault is sticky -/

/-- With `dfault` set a decoder operation only returns CapacityExceeded, whatever it would run and
whatever `ended` is (R100, R176). -/
theorem State.decOp_of_dfault {s : State} (op : Dec → Micro)
    (hlegal : s.dec.dstate.isReserved = false) (hfault : s.dec.dfault = true) :
    s.decOp op = .next (s.respond .dec .capacityExceeded .nothing) := by
  simp only [State.decOp, hlegal, hfault, State.raise]
  rfl

/-- Settles O36: every decoder operation goes through the check of `dfault`. -/
theorem capacityFaultIsSticky : Obligations.CapacityFaultIsSticky := by
  intro s i hlegal hfault hi
  obtain ⟨op, hop⟩ := exec_decoderOperation hi
  rw [hop s]
  exact State.decOp_of_dfault _ hlegal hfault

/-! ### One status for each operation -/

theorem exec_encoderOperation {i : Instr} (h : encoderOperation i = true) (s : State) :
    ∃ op : Enc → Except (Status × Info) Enc, exec i s = s.encOp op := by
  cases i <;> cases h
  case encFrame f => exact ⟨_, by rw [exec_encFrame, execEncFrame]⟩
  case encEnd => exact ⟨_, by rw [exec_encEnd, execEncEnd]⟩

theorem State.decOp_responds {s t : State} {op : Dec → Micro} (h : s.decOp op = .next t) :
    ∃ r : Response, r.port = .dec ∧ t.responses = s.responses ++ [r] := by
  obtain ⟨-, rfl⟩ | ⟨-, -, rfl⟩ | ⟨-, d, -, rfl⟩ | ⟨-, d, st, info, -, rfl⟩ :=
    State.decOp_cases h <;> exact ⟨_, rfl, rfl⟩

theorem State.encOp_responds {s t : State} {op : Enc → Except (Status × Info) Enc}
    (h : s.encOp op = .next t) :
    ∃ r : Response, r.port = .enc ∧ t.responses = s.responses ++ [r] := by
  obtain ⟨-, rfl⟩ | ⟨-, e, -, rfl⟩ | ⟨-, st, info, -, rfl⟩ := State.encOp_cases h <;>
    exact ⟨_, rfl, rfl⟩

/-- Settles O41: every branch of a unit's shared operation responds once, at the unit's port. -/
theorem everyOperationReturnsOneStatus : Obligations.EveryOperationReturnsOneStatus := by
  intro s t i h
  refine ⟨fun hi => ?dec, fun hi => ?enc⟩
  case dec =>
    obtain ⟨op, hop⟩ := exec_decoderOperation hi
    exact State.decOp_responds (hop s ▸ h)
  case enc =>
    obtain ⟨op, hop⟩ := exec_encoderOperation hi s
    exact State.encOp_responds (hop ▸ h)

/-! ### Who moves the sticky flags -/

/-- What a micro-step may do to the sticky flags: `ended` stays, and `dfault` stays unless a
capacity fault is raised (R30, R32). -/
def Micro.FlagsKept (d : Dec) : Micro → Prop
  | .done d' => d'.ended = d.ended ∧ d'.dfault = d.dfault
  | .raised d' st info => d'.ended = d.ended ∧
      (d'.dfault = d.dfault ∨ st = .capacityExceeded ∧ ∃ n, info = .bodyLength n)
  | .stopped _ => True

theorem Micro.Keeps.flagsKept {cap : Nat} {d : Dec} {m : Micro} (h : m.Keeps cap d) :
    m.FlagsKept d := by
  cases m with
  | done d' =>
    obtain ⟨hended, hfault, -, -⟩ := h
    exact ⟨hended, hfault⟩
  | raised d' st info =>
    obtain ⟨hst, -, hended, -, -, -, -, -, n, hinfo, -⟩ := h
    exact ⟨hended, .inr ⟨hst, n, hinfo⟩⟩
  | stopped r => trivial

theorem Micro.FlagsKept.trans {d d' : Dec} {m : Micro} (h : (Micro.done d').FlagsKept d)
    (h' : m.FlagsKept d') : m.FlagsKept d := by
  obtain ⟨hended, hfault⟩ := h
  cases m with
  | done e =>
    obtain ⟨hended', hfault'⟩ := h'
    exact ⟨hended'.trans hended, hfault'.trans hfault⟩
  | raised e st info =>
    obtain ⟨hended', hfault'⟩ := h'
    exact ⟨hended'.trans hended, hfault'.imp_left (·.trans hfault)⟩
  | stopped r => trivial

theorem feedBytes_flagsKept (cap : Nat) (bs : Bytes) (d : Dec) :
    (feedBytes cap bs d).FlagsKept d := by
  induction bs generalizing d with
  | nil => exact ⟨rfl, rfl⟩
  | cons b bs ih =>
    have hb := (byteStep_keeps cap b d).flagsKept
    simp only [feedBytes]
    split <;> rename_i hm <;> rw [hm] at hb
    · exact hb.trans (ih _)
    · exact hb
    · trivial

theorem whenSelected_flagsKept {t : Tag} {op : Dec → Micro} {d : Dec}
    (h : d.dstate = t → (op d).FlagsKept d) : (whenSelected t op d).FlagsKept d := by
  unfold whenSelected
  split
  · exact h ‹_›
  · trivial

section
variable {i : Instr} {s t : State}

/-- An operation that keeps the flags moves `dfault` only by a first capacity fault. -/
theorem State.decOp_flags {op : Dec → Micro} (hop : (op s.dec).FlagsKept s.dec)
    (h : s.decOp op = .next t) :
    t.dec.ended = s.dec.ended ∧
      (t.dec.dfault = s.dec.dfault ∨ s.dec.dfault = false ∧
        ∃ n, t.responses = s.responses ++ [⟨.dec, .capacityExceeded, .bodyLength n⟩]) := by
  obtain ⟨-, rfl⟩ | ⟨-, -, rfl⟩ | ⟨-, d, hd, rfl⟩ | ⟨hr, d, st, info, hd, rfl⟩ :=
    State.decOp_cases h
  · exact ⟨rfl, .inl rfl⟩
  · exact ⟨rfl, .inl rfl⟩
  · rw [hd] at hop
    exact ⟨hop.1, .inl hop.2⟩
  · rw [hd] at hop
    obtain ⟨hended, hfault | ⟨rfl, n, rfl⟩⟩ := hop
    · exact ⟨hended, .inl hfault⟩
    · exact ⟨hended, .inr ⟨hr.2.1, n, rfl⟩⟩

/-- End sets `ended` if it was clear, and leaves `dfault` (R103). -/
theorem exec_decEnd_flags (h : exec .decEnd s = .next t) :
    t.dec.dfault = s.dec.dfault ∧ (t.dec.ended = s.dec.ended ∨ s.dec.ended = false) := by
  obtain ⟨-, rfl⟩ | ⟨-, -, rfl⟩ | ⟨hr, d, hd, rfl⟩ | ⟨-, d, st, info, hd, -⟩ :=
    State.decOp_cases (op := fun d => .done (d.push .sentinel).setEnded) h
  · exact ⟨rfl, .inl rfl⟩
  · exact ⟨rfl, .inl rfl⟩
  · cases hd
    exact ⟨rfl, .inr hr.2.2⟩
  · cases hd

/-- What a decoder operation does to the sticky flags (R30, R32). -/
theorem exec_decoderOperation_flags (hi : decoderOperation i = true) (h : exec i s = .next t) :
    (t.dec.ended = s.dec.ended ∨ i = .decEnd ∧ s.dec.ended = false) ∧
      (t.dec.dfault = s.dec.dfault ∨ s.dec.dfault = false ∧
        ∃ n, t.responses = s.responses ++ [⟨.dec, .capacityExceeded, .bodyLength n⟩]) := by
  obtain rfl | rfl | ⟨tag, htag⟩ | ⟨chunk, hchunk⟩ := decoderOperation_cases hi
  · obtain ⟨hfault, hended⟩ := exec_decEnd_flags h
    exact ⟨hended.imp_right fun he => ⟨rfl, he⟩, .inl hfault⟩
  · exact (State.decOp_flags (op := fun d => .raised d .invalidInput .token)
      ⟨rfl, .inl rfl⟩ h).imp_left .inl
  · obtain ⟨op, hexec, hkeeps⟩ := exec_of_microOperationTag htag
    exact (State.decOp_flags (whenSelected_flagsKept fun hd => (hkeeps _ _ hd).flagsKept)
      (hexec s ▸ h)).imp_left .inl
  · exact (State.decOp_flags (feedBytes_flagsKept _ chunk _) (hchunk s ▸ h)).imp_left .inl

/-- What an encoder operation does to its sticky flag (R33). -/
theorem exec_encoderOperation_flag (hi : encoderOperation i = true) (h : exec i s = .next t) :
    t.enc.eended = s.enc.eended ∨ i = .encEnd ∧ s.enc.eended = false := by
  cases i <;> cases hi
  case encFrame f =>
    rw [exec_encFrame, execEncFrame] at h
    obtain ⟨-, rfl⟩ | ⟨-, e, he, rfl⟩ | ⟨-, st, info, -, rfl⟩ := State.encOp_cases h
    · exact .inl rfl
    · split at he <;> cases he
      exact .inl rfl
    · exact .inl rfl
  case encEnd =>
    rw [exec_encEnd, execEncEnd] at h
    obtain ⟨-, rfl⟩ | ⟨hended, -⟩ | ⟨-, st, info, -, rfl⟩ := State.encOp_cases h
    · exact .inl rfl
    · exact .inr ⟨rfl, hended⟩
    · exact .inl rfl

end

/-- Settles O42: a unit's flags stay under the other unit's instructions, by its frame; its own
operations move them as their flag lemmas say; what remains is its construction. -/
theorem onlyEndAndConstructionMoveTheEndFlags :
    Obligations.OnlyEndAndConstructionMoveTheEndFlags := by
  intro s t i h
  obtain (hi | rfl) | hi := exec_next_kind h
  · obtain ⟨hframe, -⟩ := exec_decoder_frame (.inl hi) h
    obtain ⟨hended, hfault⟩ := exec_decoderOperation_flags hi h
    exact ⟨fun hne => .inl (hended.resolve_left hne), fun hne => absurd (by rw [hframe]) hne,
      fun hne => .inl (hfault.resolve_left hne)⟩
  · obtain ⟨hframe, -⟩ := exec_decoder_frame (.inr rfl) h
    exact ⟨fun _ => .inr rfl, fun hne => absurd (by rw [hframe]) hne, fun _ => .inr rfl⟩
  · obtain ⟨hframe, -⟩ := exec_encoder_frame hi h
    refine ⟨fun hne => absurd (by rw [hframe]) hne, fun hne => ?_,
      fun hne => absurd (by rw [hframe]) hne⟩
    exact hi.imp_left fun hi => (exec_encoderOperation_flag hi h).resolve_left hne

end Sys2Proof.Machine

/-! PROOFS. Extended lengths are big-endian both ways (O8), and masking goes by position (O26). -/

namespace Sys2Proof

/-! ### The two forms of an extended length (R53, R73, R74) -/

/-- The 16-bit form is its first byte in front of its second. -/
theorem ext16Value_eq_append (e0 e1 : Byte) : ext16Value e0 e1 = e0 ++ e1 := by
  simp only [ext16Value, BitVec.append_def, BitVec.shiftLeftZeroExtend_eq, BitVec.setWidth'_eq]

theorem ext16Value_toNat (e0 e1 : Byte) :
    (ext16Value e0 e1).toNat = e0.toNat * 2 ^ 8 + e1.toNat := by
  rw [ext16Value_eq_append, BitVec.toNat_append, ← Nat.shiftLeft_add_eq_or_of_lt e1.isLt,
    Nat.shiftLeft_eq]

/-- Length bytes ORed into an accumulator, each in the lane that its place in the field gives it. -/
def orLanes (acc : BitVec 64) : Bytes → BitVec 64
  | [] => acc
  | e :: es => orLanes (acc ||| (e.setWidth 64 <<< (8 * es.length))) es

theorem ext64Value_eq_orLanes (e0 e1 e2 e3 e4 e5 e6 e7 : Byte) :
    ext64Value e0 e1 e2 e3 e4 e5 e6 e7 = orLanes 0 [e0, e1, e2, e3, e4, e5, e6, e7] := by
  simp [ext64Value, orLanes]

/-- Lanes below the accumulator's lowest set bit do not meet, so the ORs are a sum. -/
theorem orLanes_toNat (acc : BitVec 64) (es : Bytes) (hl : es.length ≤ 8)
    (hm : acc.toNat % 2 ^ (8 * es.length) = 0) :
    (orLanes acc es).toNat = acc.toNat + Machine.beValue es := by
  induction es generalizing acc with
  | nil => rfl
  | cons e es ih =>
    rw [List.length_cons] at hl hm
    have hcursor : (BitVec.ofNat 32 (8 * es.length)).toNat = 8 * es.length := by
      rw [BitVec.toNat_ofNat]; omega
    have hor := Machine.orLength_toNat (e := e) (k := es.length)
      (d := { Machine.Dec.reset with length := acc, cursor := BitVec.ofNat 32 (8 * es.length) })
      hcursor (by omega) hm
    simp only [Machine.orLength, hcursor] at hor
    have hacc : 2 ^ (8 * es.length) ∣ acc.toNat :=
      Nat.dvd_trans (Nat.pow_dvd_pow 2 (by omega)) (Nat.dvd_of_mod_eq_zero hm)
    rw [orLanes, ih _ (by omega), hor, Machine.beValue, Nat.add_assoc]
    rw [hor]
    exact Nat.mod_eq_zero_of_dvd (Nat.dvd_add hacc (Nat.dvd_mul_left _ _))

theorem ext64Value_toNat (e0 e1 e2 e3 e4 e5 e6 e7 : Byte) :
    (ext64Value e0 e1 e2 e3 e4 e5 e6 e7).toNat =
      e0.toNat * 2 ^ 56 + e1.toNat * 2 ^ 48 + e2.toNat * 2 ^ 40 + e3.toNat * 2 ^ 32 +
        e4.toNat * 2 ^ 24 + e5.toNat * 2 ^ 16 + e6.toNat * 2 ^ 8 + e7.toNat := by
  rw [ext64Value_eq_orLanes, orLanes_toNat _ _ (by simp) (by simp)]
  simp [Machine.beValue, Nat.add_assoc]

/-! ### Serialization gives the bytes back (R13) -/

theorem ofNat_eq_byte {n : Nat} {e : Byte} (h : n % 2 ^ 8 = e.toNat) : BitVec.ofNat 8 n = e :=
  BitVec.eq_of_toNat_eq ((BitVec.toNat_ofNat n 8).trans h)

theorem be2_of_sum (e0 e1 : Byte) : be2 (e0.toNat * 2 ^ 8 + e1.toNat) = [e0, e1] := by
  have h0 := e0.isLt
  have h1 := e1.isLt
  simp only [be2, Nat.shiftRight_eq_div_pow]
  rw [ofNat_eq_byte (e := e0) (by omega), ofNat_eq_byte (e := e1) (by omega)]

theorem be4_of_sum (e0 e1 e2 e3 : Byte) :
    be4 (e0.toNat * 2 ^ 24 + e1.toNat * 2 ^ 16 + e2.toNat * 2 ^ 8 + e3.toNat) =
      [e0, e1, e2, e3] := by
  have h0 := e0.isLt
  have h1 := e1.isLt
  have h2 := e2.isLt
  have h3 := e3.isLt
  simp only [be4, Nat.shiftRight_eq_div_pow]
  rw [ofNat_eq_byte (e := e0) (by omega), ofNat_eq_byte (e := e1) (by omega),
    ofNat_eq_byte (e := e2) (by omega), ofNat_eq_byte (e := e3) (by omega)]

/-- The two 4-byte halves of EXT64 (R74). -/
theorem be8_of_halves {hi lo : Nat} (h : lo < 2 ^ 32) :
    be8 (hi * 2 ^ 32 + lo) = be4 hi ++ be4 lo := by
  rw [be8, show (hi * 2 ^ 32 + lo) / 2 ^ 32 = hi by omega,
    show (hi * 2 ^ 32 + lo) % 2 ^ 32 = lo by omega]

theorem be8_ext64Value (e0 e1 e2 e3 e4 e5 e6 e7 : Byte) :
    be8 (ext64Value e0 e1 e2 e3 e4 e5 e6 e7).toNat = [e0, e1, e2, e3, e4, e5, e6, e7] := by
  have h4 := e4.isLt
  have h5 := e5.isLt
  have h6 := e6.isLt
  have h7 := e7.isLt
  have hsplit : (ext64Value e0 e1 e2 e3 e4 e5 e6 e7).toNat =
      (e0.toNat * 2 ^ 24 + e1.toNat * 2 ^ 16 + e2.toNat * 2 ^ 8 + e3.toNat) * 2 ^ 32 +
        (e4.toNat * 2 ^ 24 + e5.toNat * 2 ^ 16 + e6.toNat * 2 ^ 8 + e7.toNat) := by
    rw [ext64Value_toNat]; omega
  rw [hsplit, be8_of_halves (by omega), be4_of_sum, be4_of_sum]
  rfl

/-- Settles O8: the lanes of a length do not meet, so its value is the sum of its bytes, and each
byte is the quotient at its place. -/
theorem lengthBytesAreBigEndian : Obligations.LengthBytesAreBigEndian :=
  ⟨fun e0 e1 => ⟨ext16Value_toNat e0 e1, ext16Value_toNat e0 e1 ▸ be2_of_sum e0 e1⟩,
    fun e0 e1 e2 e3 e4 e5 e6 e7 => ⟨ext64Value_toNat e0 e1 e2 e3 e4 e5 e6 e7,
      be8_ext64Value e0 e1 e2 e3 e4 e5 e6 e7⟩⟩

/-! ### Masking (R54) -/

/-- The cyclic key read at `i` is the key byte at `i mod 4` in wire order. -/
theorem Key.bytes_getElem?_mod (k : Key) (i : Nat) : k.bytes[i % 4]? = some (k.cyclic i) := by
  have hi : i % 4 = 0 ∨ i % 4 = 1 ∨ i % 4 = 2 ∨ i % 4 = 3 := by omega
  obtain h | h | h | h := hi <;> simp [Key.bytes, Key.cyclic, h]

/-- Settles O26: the payload is masked from position 0, and the cyclic key at a position is the wire
key at that position mod 4. -/
theorem maskingIsByPosition : Obligations.MaskingIsByPosition := by
  intro k p
  refine ⟨rfl, Machine.wirePayload_length _ p, fun i b kb hb hkb => ?_⟩
  obtain rfl : k.cyclic i = kb := Option.some.inj ((k.bytes_getElem?_mod i).symm.trans hkb)
  rw [Machine.wirePayload, Machine.maskFrom_getElem?, hb, Nat.zero_add, Option.map_some]

end Sys2Proof

/-! PROOFS. A decoder operation depends on the decoder and the capacity only (O40); from a state of
the invariant every byte and every token is taken, and no index leaves its array (O45). -/

namespace Sys2Proof.Machine

/-! ### A decoder operation, apart from the machine around it -/

/-- What an operation comes to, sticky flags included: a function of the decoder alone (R100). -/
def Dec.outcome (op : Dec → Micro) (d : Dec) : Micro :=
  if d.dstate.isReserved then .stopped .reservedTag
  else if d.dfault then .raised d .capacityExceeded .nothing
  else if d.ended then .raised d .afterEnd .nothing
  else op d

/-- In a legal state the sticky flags only raise, so what stops is the operation itself (R90,
R176). -/
theorem Dec.outcome_stopped {d : Dec} {op : Dec → Micro} {r : Fault}
    (hlegal : d.dstate.isReserved = false) (h : d.outcome op = .stopped r) :
    d.Ready ∧ op d = .stopped r := by
  rw [Dec.outcome, hlegal] at h
  cases hfault : d.dfault with
  | true => rw [hfault] at h; cases h
  | false =>
    cases hended : d.ended with
    | true => rw [hfault, hended] at h; cases h
    | false => rw [hfault, hended] at h; exact ⟨⟨hlegal, hfault, hended⟩, h⟩

/-- The machine's part: the decoder is replaced and the status returned, or the machine stops. -/
def State.deliver (s : State) : Micro → Host.Outcome State Fault Refusal
  | .done d => .next ((s.setDec d).respond .dec .ok .nothing)
  | .raised d st info => .next ((s.setDec d).respond .dec st info)
  | .stopped r => .fault r

theorem State.decOp_eq_deliver (s : State) (op : Dec → Micro) :
    s.decOp op = s.deliver (s.dec.outcome op) := by
  unfold State.decOp Dec.outcome
  split
  · rfl
  split
  · rfl
  split
  · rfl
  split <;> rename_i hm <;> rw [hm] <;> rfl

/-- What one machine is left with, any other machine is: the decoder and the status. -/
theorem State.deliver_next {s s' : State} {m : Micro} (h : s.deliver m = .next s') :
    ∃ d st info, s' = (s.setDec d).respond .dec st info ∧
      ∀ t : State, t.deliver m = .next ((t.setDec d).respond .dec st info) := by
  cases m with
  | done d => cases h; exact ⟨d, .ok, .nothing, rfl, fun _ => rfl⟩
  | raised d st info => cases h; exact ⟨d, st, info, rfl, fun _ => rfl⟩
  | stopped r => cases h

/-- Settles O40: the outcome is a function of the decoder and the capacity, and the machine only
delivers it. -/
theorem decoderDependsOnItselfOnly : Obligations.DecoderDependsOnItselfOnly := by
  intro s t s' i hi hdec hcap h
  obtain ⟨op, hop⟩ := exec_decoderOperation hi
  rw [hop s, State.decOp_eq_deliver, hdec, hcap] at h
  obtain ⟨d, st, info, rfl, ht⟩ := State.deliver_next h
  have hexec : exec i t = .next ((t.setDec d).respond .dec st info) := by
    rw [hop t, State.decOp_eq_deliver, ht]
  exact ⟨_, _, hexec, rfl, rfl, rfl⟩

/-! ### What is taken in a state of the invariant -/

theorem Micro.FeedKept.ne_stopped {cap : Nat} {d : Dec} {m : Micro} (h : m.FeedKept cap d)
    (r : Fault) : m ≠ .stopped r := by
  rintro rfl
  exact h

section
variable {s : State}

/-- In a legal state an operation is taken, unless it stops a decoder that takes tokens (R100). -/
theorem State.decOp_next_or_stopped (op : Dec → Micro) (hlegal : s.dec.dstate.isReserved = false) :
    (∃ t, s.decOp op = .next t) ∨
      s.dec.Ready ∧ ∃ r, op s.dec = .stopped r ∧ s.decOp op = .fault r := by
  rw [State.decOp_eq_deliver]
  cases hm : s.dec.outcome op with
  | done d => exact .inl ⟨_, rfl⟩
  | raised d st info => exact .inl ⟨_, rfl⟩
  | stopped r =>
    obtain ⟨hr, hop⟩ := Dec.outcome_stopped hlegal hm
    exact .inr ⟨hr, r, hop, rfl⟩

theorem State.Inv.decOp_next (hs : s.Inv) {op : Dec → Micro}
    (hop : s.dec.Ready → ∀ r, op s.dec ≠ .stopped r) : ∃ t, s.decOp op = .next t := by
  obtain h | ⟨hr, r, hm, -⟩ := State.decOp_next_or_stopped op hs.decoder.legal
  · exact h
  · exact absurd hm (hop hr r)

/-- A chunk of any bytes is taken (R121). -/
theorem State.Inv.feed_next (hs : s.Inv) (chunk : Bytes) : ∃ t, s.feed chunk = .next t :=
  hs.decOp_next fun hr =>
    (feedBytes_kept chunk (hs.decoder.phase hr.2.1) hs.decoder.buffer hr.1).ne_stopped

/-- A micro-operation row is taken, or it is stopped because it is another state's row; its indices
stay in their arrays (R51, R93). -/
theorem State.Inv.exec_microOperation (hs : s.Inv) {i : Instr} {tag : Tag}
    (hw : i.wellFormed = true) (htag : microOperationTag i = some tag) :
    (∃ t, exec i s = .next t) ∨ s.dec.dstate ≠ tag ∧ exec i s = .fault .notSelected := by
  obtain ⟨b, hb⟩ := exec_microOperation_eq_byteStep hw htag
  rw [hb s]
  obtain h | ⟨hr, r, hm, hfault⟩ := State.decOp_next_or_stopped _ hs.decoder.legal
  · exact .inl h
  · rw [hfault]
    unfold whenSelected at hm
    split at hm
    · exact absurd hm
        ((byteStep_kept b (hs.decoder.phase hr.2.1) hs.decoder.buffer hr.1).ne_stopped r)
    · cases hm
      exact .inr ⟨‹_›, rfl⟩

/-- The rows a host can present otherwise than as a selector word, but for the encoder token that no
token has: the host tokens, the wire rows and the two constructions (R81, R82, R92). -/
def HostRow (i : Instr) : Prop :=
  decoderOperation i = true ∧ microOperationTag i = none ∨ encoderOperation i = true ∨
    i = .decReset ∨ i = .encReset

theorem State.Inv.exec_hostRow (hs : s.Inv) {i : Instr} (hi : HostRow i) :
    ∃ t, exec i s = .next t := by
  obtain ⟨hdec, hnone⟩ | henc | rfl | rfl := hi
  · obtain rfl | rfl | ⟨tag, htag⟩ | ⟨chunk, hchunk⟩ := decoderOperation_cases hdec
    · exact hs.decOp_next (op := fun d => .done (d.push .sentinel).setEnded) (by simp)
    · exact hs.decOp_next (op := fun d => .raised d .invalidInput .token) (by simp)
    · rw [hnone] at htag; cases htag
    · rw [hchunk s]; exact hs.feed_next chunk
  · obtain ⟨op, hop⟩ := exec_encoderOperation henc s
    rw [hop]; exact s.encOp_next op
  · exact ⟨_, rfl⟩
  · exact ⟨_, rfl⟩

end

/-! ### Which rows the words decode to -/

theorem decodeDecToken_hostRow {k : BitVec 2} {chunk : Bytes} {i : Instr}
    (h : decodeDecToken k chunk = .ok i) : HostRow i := by
  unfold decodeDecToken at h
  repeat' split at h
  all_goals cases h
  · exact .inl ⟨rfl, rfl⟩
  · exact .inl ⟨rfl, rfl⟩
  · exact .inl ⟨rfl, rfl⟩
  · exact .inr (.inr (.inl rfl))

theorem decodeEncToken_hostRow {k : BitVec 2} {f : Option FrameIn} {i : Instr}
    (h : decodeEncToken k f = .ok i) : HostRow i ∨ i = .encKindReserved := by
  unfold decodeEncToken at h
  repeat' split at h
  all_goals cases h
  · exact .inl (.inr (.inl rfl))
  · exact .inl (.inr (.inl rfl))
  · exact .inr rfl
  · exact .inl (.inr (.inr (.inr rfl)))

theorem decodeHdr1_hostRow {b : Byte} {ext : Bytes} {i : Instr}
    (h : decodeHdr1 b ext = .ok i) : HostRow i := by
  unfold decodeHdr1 at h
  repeat' split at h
  all_goals cases h
  all_goals exact .inl ⟨rfl, rfl⟩

theorem decodeOpcodeByte_hostRow (b : Byte) : HostRow (decodeOpcodeByte b) := by
  unfold decodeOpcodeByte
  split <;> exact .inl ⟨rfl, rfl⟩

/-- Only a selector word decodes to a micro-operation row or to a reserved one (R95). -/
theorem decode_hostRow {p : PortWord} {i : Instr} (h : decode p = .ok i) :
    (∃ w, p = .uop w) ∨ HostRow i ∨ i = .encKindReserved := by
  cases p with
  | decToken k chunk => exact .inr (.inl (decodeDecToken_hostRow h))
  | encToken k f => exact .inr (decodeEncToken_hostRow h)
  | uop w => exact .inl ⟨w, rfl⟩
  | hdr0 b => cases h; exact .inr (.inl (.inl ⟨rfl, rfl⟩))
  | hdr1 b ext => exact .inr (.inl (decodeHdr1_hostRow h))
  | opcodeByte b => cases h; exact .inr (.inl (decodeOpcodeByte_hostRow b))

theorem microOperationTag_decodeLenByte (b : Byte) :
    microOperationTag (decodeLenByte b) = some .awaitLen := by
  unfold decodeLenByte
  split
  · rfl
  · split <;> rfl

/-- The row a selector word decodes to is its tag's, or stops as reserved (R90, R93). -/
theorem decodeUop_row {w : BitVec 11} {tag : Tag} (hw : selectorTag w = tag.code) :
    microOperationTag (decodeUop w) = some tag ∨
      tag.isReserved = true ∧ ∀ s, exec (decodeUop w) s = .fault .reservedTag := by
  unfold decodeUop
  rw [hw]
  cases tag with
  | awaitLen => exact .inl (microOperationTag_decodeLenByte _)
  | reserved6 | reserved7 => exact .inr ⟨rfl, fun _ => rfl⟩
  | awaitFlags | awaitExtLen | awaitKey | awaitBody | awaitMaskedBody => exact .inl rfl

theorem selectorTag_selector (t : Tag) (b : Byte) : selectorTag (selector t b) = t.code :=
  selectorTag_selectorWord t.code b

section
variable {s : State}

/-- A wire byte forms the selector word of the decoder's own state, so its row is taken (R93). -/
theorem State.Inv.step_byte (hs : s.Inv) {b : Byte} {rest : List Input}
    (hin : s.input = .byte b :: rest) : ∃ t, step s = .next t := by
  rw [step_of_decode_ok (State.fetch_of_byte hin) rfl]
  obtain htag | ⟨hreserved, -⟩ := decodeUop_row (selectorTag_selector s.dec.dstate b)
  · obtain h | ⟨hne, -⟩ := hs.advance.exec_microOperation (decodeUop_wellFormed _) htag
    · exact h
    · exact absurd rfl hne
  · exact absurd (hs.decoder.legal.symm.trans hreserved) Bool.false_ne_true

theorem State.Inv.step_hostRow (hs : s.Inv) {p : PortWord} {i : Instr} {rest : List Input}
    (hin : s.input = .word p :: rest) (hd : decode p = .ok i) (hi : HostRow i) :
    ∃ t, step s = .next t := by
  rw [step_of_decode_ok (State.fetch_of_word hin) hd]
  exact hs.advance.exec_hostRow hi

/-- A step faults only on a raw selector word. -/
theorem State.Inv.fault_of_uop (hs : s.Inv) {r : Fault} (h : step s = .fault r) :
    ∃ w rest, s.input = .word (.uop w) :: rest := by
  match hin : s.input with
  | [] => rw [step_of_fetch_none (State.fetch_of_nil hin)] at h; cases h
  | .byte b :: rest =>
    obtain ⟨t, ht⟩ := hs.step_byte hin
    rw [ht] at h; cases h
  | .word p :: rest =>
    cases hd : decode p with
    | error e =>
      rw [step_of_decode_error (State.fetch_of_word hin) hd] at h; cases h
    | ok i =>
      obtain ⟨w, rfl⟩ | hi | rfl := decode_hostRow hd
      · exact ⟨w, rest, rfl⟩
      · obtain ⟨t, ht⟩ := hs.step_hostRow hin hd hi
        rw [ht] at h; cases h
      · rw [step_of_decode_ok (State.fetch_of_word hin) hd] at h; cases h

/-- A raw selector word stops as reserved or as another state's, never at an index (R51). -/
theorem State.Inv.exec_decodeUop_fault (hs : s.Inv) {w : BitVec 11} {r : Fault}
    (h : exec (decodeUop w) s = .fault r) : r = .reservedTag ∨ r = .notSelected := by
  have hw : selectorTag w = (Tag.ofCode (selectorTag w)).code := (Tag.code_ofCode _).symm
  obtain htag | ⟨-, hreserved⟩ := decodeUop_row hw
  · obtain ⟨t, ht⟩ | ⟨-, hsel⟩ := hs.exec_microOperation (decodeUop_wellFormed w) htag
    · rw [ht] at h; cases h
    · rw [hsel] at h; cases h; exact .inr rfl
  · rw [hreserved s] at h; cases h; exact .inl rfl

end

/-- Settles O45: a byte runs its own state's micro-operation, which R40 lets complete; a token runs a
host row, which completes; what is left to fault is a raw selector word, and not at an index. -/
theorem invariantStatesTakeEveryToken : Obligations.InvariantStatesTakeEveryToken := by
  intro s hs
  refine ⟨fun b rest hin => hs.step_byte hin, fun p i rest hin hd hi => hs.step_hostRow hin hd hi,
    fun r h => hs.fault_of_uop h, fun h => ?index⟩
  case index =>
    obtain ⟨w, rest, hin⟩ := hs.fault_of_uop h
    rw [step_of_decode_ok (State.fetch_of_word hin) rfl] at h
    obtain hr | hr := hs.advance.exec_decodeUop_fault h <;> cases hr

end Sys2Proof.Machine

/-! PROOFS. The words and the instructions of the table are each other's inverses (O5, O6), and the
selector word of a state and a byte is R93's row (O7). -/

namespace Sys2Proof.Machine

/-! ### The row of a selector word (R93, R95) -/

/-- The micro-operation that a byte selects in a state: the table of R93, with R90's rows. -/
def Tag.row : Tag → Byte → Instr
  | .awaitFlags, b => .uopFlags b
  | .awaitLen, b => decodeLenByte b
  | .awaitExtLen, b => .uopExtLen b
  | .awaitKey, b => .uopKey b
  | .awaitBody, b => .uopBody b
  | .awaitMaskedBody, b => .uopMaskedBody b
  | .reserved6, b => .uopReserved6 b
  | .reserved7, b => .uopReserved7 b

theorem decodeUop_selector (t : Tag) (b : Byte) : decodeUop (selector t b) = t.row b := by
  unfold decodeUop
  rw [selectorTag_selector, selector, selectorByte_selectorWord]
  cases t <;> rfl

theorem decode_selector (t : Tag) (b : Byte) : decode (.uop (selector t b)) = .ok (t.row b) :=
  congrArg Except.ok (decodeUop_selector t b)

/-- Every selector word is that of one state and one byte. -/
theorem exists_selector (w : BitVec 11) : ∃ t b, w = selector t b := by
  refine ⟨Tag.ofCode (selectorTag w), selectorByte w, ?_⟩
  rw [selector_eq_append, Tag.code_ofCode]
  exact (BitVec.extractLsb'_append_extractLsb' (w := 3) (len := 8) (x := w)).symm

theorem selector_toNat (t : Tag) (b : Byte) :
    (selector t b).toNat = t.code.toNat * 256 + b.toNat := by
  rw [selector_eq_append, BitVec.toNat_append, ← Nat.shiftLeft_add_eq_or_of_lt b.isLt,
    Nat.shiftLeft_eq]

/-! ### Header byte 1 (R72, R93) -/

/-- LEN7 has three forms: a literal length, or one of the two indicators (R72). -/
theorem len7_cases (l : BitVec 7) : shortLength l = true ∨ l = 126 ∨ l = 127 := by
  revert l; decide

theorem exists_hdr1Byte (b : Byte) : ∃ m l, b = hdr1Byte m l :=
  ⟨bit7 b, bits6to0 b, (hdr1Byte_fields b).symm⟩

section
variable (m : Bool)

theorem decodeLenByte_short {l : BitVec 7} (h : shortLength l = true) :
    decodeLenByte (hdr1Byte m l) = .uopLenShort m l := by
  rw [decodeLenByte, bits6to0_hdr1Byte, bit7_hdr1Byte, if_pos h]

theorem decodeLenByte_ext16 : decodeLenByte (hdr1Byte m 126) = .uopLenExt16 m := by
  rw [decodeLenByte, bits6to0_hdr1Byte, bit7_hdr1Byte]; rfl

theorem decodeLenByte_ext64 : decodeLenByte (hdr1Byte m 127) = .uopLenExt64 m := by
  rw [decodeLenByte, bits6to0_hdr1Byte, bit7_hdr1Byte]; rfl

theorem decodeHdr1_short {l : BitVec 7} (h : shortLength l = true) :
    decodeHdr1 (hdr1Byte m l) [] = .ok (.wireHdr1Short m l) := by
  rw [decodeHdr1, bits6to0_hdr1Byte, bit7_hdr1Byte, if_pos h]

theorem decodeHdr1_ext16 (e0 e1 : Byte) :
    decodeHdr1 (hdr1Byte m 126) [e0, e1] = .ok (.wireHdr1Ext16 m (ext16Value e0 e1)) := by
  rw [decodeHdr1, bits6to0_hdr1Byte, bit7_hdr1Byte]; rfl

theorem decodeHdr1_ext64 (e0 e1 e2 e3 e4 e5 e6 e7 : Byte) :
    decodeHdr1 (hdr1Byte m 127) [e0, e1, e2, e3, e4, e5, e6, e7] =
      .ok (.wireHdr1Ext64 m (ext64Value e0 e1 e2 e3 e4 e5 e6 e7)) := by
  rw [decodeHdr1, bits6to0_hdr1Byte, bit7_hdr1Byte]; rfl

end

/-- R93's table reads bits 6 to 0 through the mask 0x7F. -/
theorem decodeLenByte_eq_masked (b : Byte) :
    decodeLenByte b =
      if (b &&& 0x7F).toNat ≤ 125 then .uopLenShort (b.getLsbD 7) ((b &&& 0x7F).setWidth 7)
      else if b &&& 0x7F = 126 then .uopLenExt16 (b.getLsbD 7)
      else .uopLenExt64 (b.getLsbD 7) := by
  revert b; decide

/-! ### Extended lengths (R73, R74) -/

theorem be2_ext16Value (e0 e1 : Byte) : be2 (ext16Value e0 e1).toNat = [e0, e1] :=
  (lengthBytesAreBigEndian.1 e0 e1).2

/-- Every 16-bit length is that of two bytes. -/
theorem exists_ext16Value (len : BitVec 16) : ∃ e0 e1, len = ext16Value e0 e1 := by
  refine ⟨BitVec.ofNat 8 (len.toNat / 2 ^ 8), BitVec.ofNat 8 len.toNat, BitVec.eq_of_toNat_eq ?_⟩
  have := len.isLt
  simp only [ext16Value_toNat, BitVec.toNat_ofNat]
  omega

/-- Every 64-bit length is that of eight bytes. -/
theorem exists_ext64Value (len : BitVec 64) :
    ∃ e0 e1 e2 e3 e4 e5 e6 e7, len = ext64Value e0 e1 e2 e3 e4 e5 e6 e7 := by
  refine ⟨BitVec.ofNat 8 (len.toNat / 2 ^ 56), BitVec.ofNat 8 (len.toNat / 2 ^ 48),
    BitVec.ofNat 8 (len.toNat / 2 ^ 40), BitVec.ofNat 8 (len.toNat / 2 ^ 32),
    BitVec.ofNat 8 (len.toNat / 2 ^ 24), BitVec.ofNat 8 (len.toNat / 2 ^ 16),
    BitVec.ofNat 8 (len.toNat / 2 ^ 8), BitVec.ofNat 8 len.toNat, BitVec.eq_of_toNat_eq ?_⟩
  have := len.isLt
  simp only [ext64Value_toNat, BitVec.toNat_ofNat]
  omega

/-! ### Decoding what was encoded -/

/-- Settles O5, row by row: a selector word by its tag, header byte 1 by its length form, and the
other words by their fields. -/
theorem decodeInvertsEncode : Obligations.DecodeInvertsEncode := by
  intro i hw
  cases i
  case decFeed | decEnd | decInvalid | decReset | encEnd | encKindReserved | encReset => rfl
  case encFrame f => exact if_pos hw
  case uopFlags b => exact decode_selector .awaitFlags b
  case uopLenShort m l =>
    exact (decode_selector .awaitLen _).trans (congrArg Except.ok (decodeLenByte_short m hw))
  case uopLenExt16 m =>
    exact (decode_selector .awaitLen _).trans (congrArg Except.ok (decodeLenByte_ext16 m))
  case uopLenExt64 m =>
    exact (decode_selector .awaitLen _).trans (congrArg Except.ok (decodeLenByte_ext64 m))
  case uopExtLen b => exact decode_selector .awaitExtLen b
  case uopKey b => exact decode_selector .awaitKey b
  case uopBody b => exact decode_selector .awaitBody b
  case uopMaskedBody b => exact decode_selector .awaitMaskedBody b
  case uopReserved6 b => exact decode_selector .reserved6 b
  case uopReserved7 b => exact decode_selector .reserved7 b
  case wireHdr0 f r o => simp [encode, decode]
  case wireHdr1Short m l => exact decodeHdr1_short m hw
  case wireHdr1Ext16 m len =>
    obtain ⟨e0, e1, rfl⟩ := exists_ext16Value len
    rw [encode, be2_ext16Value]
    exact decodeHdr1_ext16 m e0 e1
  case wireHdr1Ext64 m len =>
    obtain ⟨e0, e1, e2, e3, e4, e5, e6, e7, rfl⟩ := exists_ext64Value len
    rw [encode, be8_ext64Value]
    exact decodeHdr1_ext64 m e0 e1 e2 e3 e4 e5 e6 e7
  all_goals simp [encode, decode, decodeOpcodeByte]

/-! ### Encoding what was decoded -/

/-- The four 2-bit token kinds (R95). -/
theorem kind_cases (k : BitVec 2) : k = 0 ∨ k = 1 ∨ k = 2 ∨ k = 3 := by
  revert k; decide

theorem encode_decodeDecToken {k : BitVec 2} {chunk : Bytes} {i : Instr}
    (h : decodeDecToken k chunk = .ok i) : encode i = .decToken k chunk := by
  obtain rfl | rfl | rfl | rfl := kind_cases k <;> cases chunk <;> cases h <;> rfl

theorem encode_decodeEncToken {k : BitVec 2} {f : Option FrameIn} {i : Instr}
    (h : decodeEncToken k f = .ok i) : encode i = .encToken k f := by
  cases f with
  | none => obtain rfl | rfl | rfl | rfl := kind_cases k <;> cases h <;> rfl
  | some f =>
    simp only [decodeEncToken] at h
    split at h
    · split at h <;> cases h
      rename_i hk _
      rw [hk, encode]
    · cases h

theorem encode_decodeLenByte (b : Byte) :
    encode (decodeLenByte b) = .uop (selector .awaitLen b) := by
  obtain ⟨m, l, rfl⟩ := exists_hdr1Byte b
  obtain hl | rfl | rfl := len7_cases l
  · rw [decodeLenByte_short m hl]; rfl
  · rw [decodeLenByte_ext16]; rfl
  · rw [decodeLenByte_ext64]; rfl

theorem encode_row (t : Tag) (b : Byte) : encode (t.row b) = .uop (selector t b) := by
  cases t
  case awaitLen => exact encode_decodeLenByte b
  all_goals rfl

theorem encode_decodeUop (w : BitVec 11) : encode (decodeUop w) = .uop w := by
  obtain ⟨t, b, rfl⟩ := exists_selector w
  rw [decodeUop_selector, encode_row]

theorem encode_decodeHdr1 {b : Byte} {ext : Bytes} {i : Instr} (h : decodeHdr1 b ext = .ok i) :
    encode i = .hdr1 b ext := by
  obtain ⟨m, l, rfl⟩ := exists_hdr1Byte b
  unfold decodeHdr1 at h
  rw [bits6to0_hdr1Byte, bit7_hdr1Byte] at h
  obtain hl | rfl | rfl := len7_cases l
  · rw [if_pos hl] at h
    split at h <;> cases h
    rfl
  · rw [if_neg (by decide), if_pos rfl] at h
    split at h <;> cases h
    rw [encode, be2_ext16Value]
  · rw [if_neg (by decide), if_neg (by decide)] at h
    split at h <;> cases h
    rw [encode, be8_ext64Value]

/-- The 256 bytes, sixteen opcodes with FIN and RSV free, each keep their fields (R78). -/
theorem encode_decodeOpcodeByte (b : Byte) : encode (decodeOpcodeByte b) = .opcodeByte b := by
  revert b; decide

/-- Settles O6, format by format: an accepted word is well-formed, and is made of the fields that
its instruction carries. -/
theorem encodeInvertsDecode : Obligations.EncodeInvertsDecode := by
  intro p i h
  refine ⟨decode_wellFormed h, ?_⟩
  cases p with
  | decToken k chunk => exact encode_decodeDecToken h
  | encToken k f => exact encode_decodeEncToken h
  | uop w => cases h; exact encode_decodeUop w
  | hdr0 b => cases h; rw [encode, hdr0Byte_fields]
  | hdr1 b ext => exact encode_decodeHdr1 h
  | opcodeByte b => cases h; exact encode_decodeOpcodeByte b

/-- Settles O7: the selector word is the tag in front of the byte, and it decodes to the tag's row,
which in AWAIT_LEN R93 splits by bits 6 to 0. -/
theorem everyByteSelectsOneMicroOperation : Obligations.EveryByteSelectsOneMicroOperation := by
  intro t b
  refine ⟨selector_toNat t b, ?_⟩
  rw [decode_selector]
  cases t
  case awaitLen => exact congrArg Except.ok (decodeLenByte_eq_masked b)
  all_goals rfl

end Sys2Proof.Machine

/-! PROOFS. A selected micro-operation is a one-byte Feed (O17), another state's row and the
reserved rows stop (O18, O34), the wire rows are the Feed of their bytes (O33) and leave the
header's fields (O31, O32), a placed word is what the next step runs (O3), and the words written
out from the spec decode to their rows (O4). -/

namespace Sys2Proof.Machine

/-! ### Rows that are selected, not selected, and reserved (R90, R93) -/

section
variable {s : State} {t : Tag} {op : Dec → Micro} {b : Byte}

/-- An operation selected by the decoder's tag, that does what ByteStep does with a byte, is the
Feed of that byte (R102, R104). -/
theorem State.decOp_whenSelected (ht : s.dec.dstate = t)
    (h : op s.dec = byteStep s.params.bodyCapacity b s.dec) :
    s.decOp (whenSelected t op) = s.feed [b] := by
  simp only [State.feed, State.decOp, whenSelected, if_pos ht, h, feedBytes_singleton]

theorem exec_decodeLenByte (b : Byte) (ht : s.dec.dstate = .awaitLen) :
    exec (decodeLenByte b) s = s.feed [b] := by
  obtain ⟨m, l, rfl⟩ := exists_hdr1Byte b
  have hstep := byteStep_hdr1Byte s.params.bodyCapacity m l ht
  obtain hl | rfl | rfl := len7_cases l
  · rw [decodeLenByte_short m hl]
    rw [if_pos (of_decide_eq_true hl)] at hstep
    exact State.decOp_whenSelected ht hstep.symm
  · rw [decodeLenByte_ext16]
    exact State.decOp_whenSelected ht hstep.symm
  · rw [decodeLenByte_ext64]
    exact State.decOp_whenSelected ht hstep.symm

/-- In a legal state the selected row is the Feed of its byte, whatever the flags. -/
theorem exec_row (b : Byte) (hlegal : s.dec.dstate.isReserved = false) :
    exec (s.dec.dstate.row b) s = s.feed [b] := by
  cases ht : s.dec.dstate with
  | awaitFlags => exact State.decOp_whenSelected ht (byteStep_awaitFlags _ b ht).symm
  | awaitLen => exact exec_decodeLenByte b ht
  | awaitExtLen => exact State.decOp_whenSelected ht (byteStep_awaitExtLen _ b ht).symm
  | awaitKey => exact State.decOp_whenSelected ht (byteStep_awaitKey _ b ht).symm
  | awaitBody => exact State.decOp_whenSelected ht (byteStep_awaitBody _ b ht).symm
  | awaitMaskedBody => exact State.decOp_whenSelected ht (byteStep_awaitMaskedBody _ b ht).symm
  | reserved6 | reserved7 => rw [ht] at hlegal; cases hlegal

theorem State.decOp_of_reserved (op : Dec → Micro) (h : s.dec.dstate.isReserved = true) :
    s.decOp op = .fault .reservedTag := if_pos h

end

/-- Settles O17: the word decodes to the row of the decoder's own state. -/
theorem selectedMicroOperationIsAOneByteFeed :
    Obligations.SelectedMicroOperationIsAOneByteFeed := by
  intro s b i hlegal hd
  rw [← selector_eq_append, decode_selector] at hd
  cases hd
  exact exec_row b hlegal

/-- Settles O18: every micro-operation row goes through the check of its tag. -/
theorem microOperationOfAnotherStateIsStopped :
    Obligations.MicroOperationOfAnotherStateIsStopped := by
  intro s i t hr ht hne
  obtain ⟨op, hexec, -⟩ := exec_of_microOperationTag ht
  rw [hexec s, State.decOp_of_ready _ hr, whenSelected, if_neg hne]

/-- Settles O34: every decoder operation goes through the check of the tag; the reserved rows have
no other meaning. -/
theorem reservedRowsAndTagsAreStuck : Obligations.ReservedRowsAndTagsAreStuck := by
  refine ⟨fun s b => ⟨rfl, rfl⟩, fun s => rfl, fun s i hreserved hi => ?_⟩
  obtain ⟨op, hop⟩ := exec_decoderOperation hi
  rw [hop s]
  exact State.decOp_of_reserved _ hreserved

/-! ### Wire rows (R71 to R74, R78) -/

theorem exec_wireHdr1Ext16 (m : Bool) (e0 e1 : Byte) (s : State) :
    exec (.wireHdr1Ext16 m (ext16Value e0 e1)) s = s.feed [hdr1Byte m 126, e0, e1] := by
  rw [← be2_ext16Value]; rfl

theorem exec_wireHdr1Ext64 (m : Bool) (e0 e1 e2 e3 e4 e5 e6 e7 : Byte) (s : State) :
    exec (.wireHdr1Ext64 m (ext64Value e0 e1 e2 e3 e4 e5 e6 e7)) s =
      s.feed [hdr1Byte m 127, e0, e1, e2, e3, e4, e5, e6, e7] := by
  rw [← be8_ext64Value]; rfl

/-- Settles O33: a wire row means the Feed of its bytes, and the length bytes of an extended form
are those its value is made of. -/
theorem wireRowsAreTheFeedOfTheirBytes : Obligations.WireRowsAreTheFeedOfTheirBytes := by
  intro s
  refine ⟨?_, ?_, fun m e0 e1 => exec_wireHdr1Ext16 m e0 e1 s,
    fun m e0 e1 e2 e3 e4 e5 e6 e7 => exec_wireHdr1Ext64 m e0 e1 e2 e3 e4 e5 e6 e7 s, ?_⟩
  · exact fun _ _ _ => rfl
  · exact fun _ _ => rfl
  · and_intros <;> exact fun _ _ => rfl

/-- Header byte 0 in AWAIT_FLAGS gives the decoder its FIN and opcode (R107). -/
theorem State.feed_hdr0Byte {s : State} (f : Bool) (r : BitVec 3) (o : BitVec 4)
    (hr : s.dec.Ready) (hs : s.dec.dstate = .awaitFlags) :
    s.feed [hdr0Byte f r o] = .next { s with
      dec := { s.dec with fin := f, opcode := o, dstate := .awaitLen }
      responses := s.responses ++ [⟨.dec, .ok, .nothing⟩] } := by
  rw [State.feed, State.decOp_of_ready _ hr, feedBytes_singleton, byteStep_awaitFlags _ _ hs,
    uFlags, Dec.takeHdr0, bit7_hdr0Byte, bits3to0_hdr0Byte]
  rfl

/-- Settles O31: each row is the Feed of a header byte 0 with its opcode. -/
theorem headerByteZeroRowsRecordFinAndOpcode :
    Obligations.HeaderByteZeroRowsRecordFinAndOpcode := by
  intro s f r hr hs taken
  have feed (o : BitVec 4) : s.feed [hdr0Byte f r o] = taken o := State.feed_hdr0Byte f r o hr hs
  exact ⟨feed, feed 0, feed 1, feed 2, feed 3, feed 4, feed 5, feed 6, feed 7, feed 8, feed 9,
    feed 10, feed 11, feed 12, feed 13, feed 14, feed 15⟩

/-! ### Header byte 1 with its length (R72 to R74, R105) -/

/-- The decoder after a whole header with MASK `m` and retained length `L`: in the payload, or, when
that is unmasked and empty, at the next frame with this one emitted (R105). -/
def Dec.afterHeader (d : Dec) (m : Bool) (L : Nat) : Dec :=
  if m = false ∧ L = 0 then
    { Dec.reset with
      dout := d.dout ++
        [.frame ⟨d.fin, d.opcode, false, if d.opcode = 1 then .text else .binary, []⟩] }
  else
    { d with
      mask := m, length := BitVec.ofNat 64 L, body := List.replicate L 0, cursor := 0,
      dstate := if m then .awaitKey else .awaitBody }

section
variable {cap L : Nat} {d : Dec} (m : Bool)

/-- Within the capacity, the payload is entered whatever the length phase left in the cursor. -/
theorem enterPayload_eq_afterHeader (t : Tag) (c : BitVec 32) (hr : d.Ready) (hcap : L ≤ cap)
    (h64 : L < 2 ^ 64) :
    Dec.enterPayload cap { d with
      mask := m, length := BitVec.ofNat 64 L, cursor := c, dstate := t } =
      .done (d.afterHeader m L) := by
  obtain ⟨-, hfault, hended⟩ := hr
  have hlen : (BitVec.ofNat 64 L).toNat = L :=
    (BitVec.toNat_ofNat L 64).trans (Nat.mod_eq_of_lt h64)
  have hzero : BitVec.ofNat 64 L = 0 ↔ L = 0 := by rw [← BitVec.toNat_inj, hlen]; rfl
  rw [Dec.enterPayload_of_le (by rwa [hlen])]
  simp only [Dec.openPayload, Dec.afterHeader, hlen, hzero]
  cases m with
  | true => rfl
  | false =>
    by_cases h0 : L = 0
    · simp [h0, Dec.emit, Dec.sessionReset, Dec.push, Dec.record, kindOf, Dec.reset, hfault, hended]
    · simp [h0]

theorem feedBytes_hdr1Byte_short {l : BitVec 7} (hr : d.Ready) (hs : d.dstate = .awaitLen)
    (hl : l.toNat ≤ 125) (hcap : l.toNat ≤ cap) :
    feedBytes cap [hdr1Byte m l] d = .done (d.afterHeader m l.toNat) := by
  rw [feedBytes_singleton, byteStep_hdr1Byte _ m l hs, if_pos hl, uLenShort,
    ← enterPayload_eq_afterHeader m d.dstate d.cursor hr hcap (by omega), BitVec.ofNat_toNat]
  rfl

/-- The bytes of an extended length, behind the indicator that starts the shift (R109 to R111). -/
theorem feedBytes_extended {es : Bytes} (hr : d.Ready) (hne : es ≠ [])
    (hl : es.length ≤ 8) (hcap : beValue es % 2 ^ 32 ≤ cap) :
    feedBytes cap es { d with
      mask := m, length := 0, cursor := BitVec.ofNat 32 (8 * (es.length - 1)),
      dstate := .awaitExtLen } = .done (d.afterHeader m (beValue es % 2 ^ 32)) := by
  rw [feedBytes_lengthBytes cap es rfl hne hl _ (Nat.zero_mod _),
    ← enterPayload_eq_afterHeader m .awaitExtLen 0 hr hcap (by omega)]
  · simp
  · exact (BitVec.toNat_ofNat _ 32).trans (Nat.mod_eq_of_lt (by omega))

theorem feedBytes_hdr1Byte_ext16 (e0 e1 : Byte) (hr : d.Ready) (hs : d.dstate = .awaitLen)
    (hcap : (ext16Value e0 e1).toNat ≤ cap) :
    feedBytes cap [hdr1Byte m 126, e0, e1] d =
      .done (d.afterHeader m (ext16Value e0 e1).toNat) := by
  have hv : beValue [e0, e1] % 2 ^ 32 = (ext16Value e0 e1).toNat := by
    rw [ext16Value_toNat, Nat.mod_eq_of_lt (by simp [beValue]; omega)]
    simp [beValue]
  rw [feedBytes, byteStep_hdr1Byte _ m _ hs]
  exact hv ▸ feedBytes_extended m hr (by simp) (by simp) (hv ▸ hcap)

theorem feedBytes_hdr1Byte_ext64 (e0 e1 e2 e3 e4 e5 e6 e7 : Byte) (hr : d.Ready)
    (hs : d.dstate = .awaitLen)
    (hcap : (ext64Value e0 e1 e2 e3 e4 e5 e6 e7).toNat % 2 ^ 32 ≤ cap) :
    feedBytes cap [hdr1Byte m 127, e0, e1, e2, e3, e4, e5, e6, e7] d =
      .done (d.afterHeader m ((ext64Value e0 e1 e2 e3 e4 e5 e6 e7).toNat % 2 ^ 32)) := by
  have hv : beValue [e0, e1, e2, e3, e4, e5, e6, e7] =
      (ext64Value e0 e1 e2 e3 e4 e5 e6 e7).toNat := by
    rw [ext64Value_toNat]
    simp [beValue, Nat.add_assoc]
  rw [feedBytes, byteStep_hdr1Byte _ m _ hs]
  exact hv ▸ feedBytes_extended m hr (by simp) (by simp) (hv ▸ hcap)

end

/-- A Feed that completes replaces the decoder and returns OK. -/
theorem State.feed_of_done {s : State} {chunk : Bytes} {d : Dec} (hr : s.dec.Ready)
    (h : feedBytes s.params.bodyCapacity chunk s.dec = .done d) :
    s.feed chunk = .next { s with
      dec := d
      responses := s.responses ++ [⟨.dec, .ok, .nothing⟩] } := by
  rw [State.feed, State.decOp_of_ready _ hr, h]
  rfl

/-- Settles O32: each row is the Feed of header byte 1 and its length bytes, which leave the length
that `Dec.afterHeader` enters the payload with. -/
theorem headerByteOneRowsRetainTheLength : Obligations.HeaderByteOneRowsRetainTheLength := by
  intro s m L i hr hs hi hcap
  obtain ⟨l, hl, rfl, rfl⟩ | ⟨len, rfl, rfl⟩ | ⟨len, rfl, rfl⟩ := hi
  · exact State.feed_of_done hr (feedBytes_hdr1Byte_short m hr hs hl hcap)
  · obtain ⟨e0, e1, rfl⟩ := exists_ext16Value len
    rw [exec_wireHdr1Ext16]
    exact State.feed_of_done hr (feedBytes_hdr1Byte_ext16 m e0 e1 hr hs hcap)
  · obtain ⟨e0, e1, e2, e3, e4, e5, e6, e7, rfl⟩ := exists_ext64Value len
    rw [exec_wireHdr1Ext64]
    exact State.feed_of_done hr (feedBytes_hdr1Byte_ext64 m e0 e1 e2 e3 e4 e5 e6 e7 hr hs hcap)

/-! ### A placed word (R95, log entry 4) -/

theorem Dec.parkedAt_self (d : Dec) : d.parkedAt d.dstate = d := if_pos rfl

theorem Dec.parkedAt_dstate (t : Tag) (d : Dec) : (d.parkedAt t).dstate = t := by
  unfold Dec.parkedAt
  split
  · assumption
  · cases t <;> rfl

/-- A tag's row carries the tag, or is a reserved row (R90, R93). -/
theorem Tag.row_cases (t : Tag) (b : Byte) :
    microOperationTag (t.row b) = some t ∨
      t.row b = .uopReserved6 b ∨ t.row b = .uopReserved7 b := by
  cases t
  case awaitLen => exact .inl (microOperationTag_decodeLenByte b)
  case reserved6 => exact .inr (.inl rfl)
  case reserved7 => exact .inr (.inr rfl)
  all_goals exact .inl rfl

/-- The number of a table word that decodes is the number of a word, which is what is placed. -/
theorem decodeTableWord_some {nbits w : Nat} {i : Instr} (h : decodeTableWord nbits w = some i) :
    ∃ p, decode p = .ok i ∧ ∀ s : State, s.withFetchWord nbits w = s.place p := by
  unfold decodeTableWord at h
  split at h
  · cases h
  rename_i p hp
  split at h <;> cases h
  exact ⟨p, ‹_›, fun s => by rw [State.withFetchWord, hp]⟩

theorem State.place_selector (s : State) (t : Tag) (b : Byte) :
    s.place (.uop (selector t b)) =
      { s with dec := s.dec.parkedAt t, input := .byte b :: s.input } := by
  rw [State.place, selectorTag_selector, Tag.ofCode_code, selector, selectorByte_selectorWord]

/-- A selector word is placed as its byte, and the next fetch forms it again. -/
theorem State.step_place_selector (s : State) (t : Tag) (b : Byte) :
    step (s.place (.uop (selector t b))) = exec (t.row b) { s with dec := s.dec.parkedAt t } := by
  rw [State.place_selector,
    step_of_decode_ok (State.fetch_of_byte rfl) (decode_selector _ b), Dec.parkedAt_dstate]
  rfl

/-- A word of another format is placed as it is. -/
theorem State.step_place_of_ne_uop {p : PortWord} {i : Instr} (s : State) (hp : ∀ w, p ≠ .uop w)
    (hd : decode p = .ok i) : step (s.place p) = exec i s := by
  have hplace : s.place p = { s with input := .word p :: s.input } := by
    cases p
    case uop w => exact absurd rfl (hp w)
    all_goals rfl
  rw [hplace, step_of_decode_ok (State.fetch_of_word rfl) hd]
  rfl

/-- Settles O3: a selector word leaves the decoder where it is when it is of the decoder's own
state; any other word leaves the decoder in any case. -/
theorem placedWordIsRunByTheNextStep : Obligations.PlacedWordIsRunByTheNextStep := by
  intro s nbits w i h
  obtain ⟨p, hd, hplace⟩ := decodeTableWord_some h
  rw [hplace s]
  by_cases hp : ∃ w, p = .uop w
  · obtain ⟨w, rfl⟩ := hp
    obtain ⟨t, b, rfl⟩ := exists_selector w
    rw [decode_selector] at hd
    cases hd
    refine ⟨_, s.step_place_selector t b, rfl, rfl, rfl, rfl, fun htag hne => ?_⟩
    obtain hrow | hrow | hrow := t.row_cases b
    · exact htag t hrow ▸ s.dec.parkedAt_self
    · exact absurd hrow (hne b).1
    · exact absurd hrow (hne b).2
  · have hne : ∀ w, p ≠ .uop w := fun w hw => hp ⟨w, hw⟩
    exact ⟨s, s.step_place_of_ne_uop hne hd, rfl, rfl, rfl, rfl, fun _ _ => rfl⟩

/-! ### Words written out from the spec -/

/-- Settles O4: the decoder reads each literal word as its row. -/
theorem specWordsDecodeToTheirRows : Obligations.SpecWordsDecodeToTheirRows :=
  ⟨rfl, rfl, rfl, rfl, rfl, rfl, rfl, rfl, rfl, rfl, rfl⟩

end Sys2Proof.Machine

/-! PROOFS. Each micro-operation's new registers, with everything else as it was (O9 to O16), and
the two host tokens without a chunk (O21, O22). -/

namespace Sys2Proof.Machine

/-! ### A decoder operation that is not refused -/

section
variable {s : State}

/-- A decoder that takes tokens runs the operation, and the machine delivers what it comes to. -/
theorem State.decOp_deliver (op : Dec → Micro) (hr : s.dec.Ready) :
    s.decOp op = s.deliver (op s.dec) := by
  obtain ⟨hlegal, hfault, hended⟩ := hr
  simp [State.decOp_eq_deliver, Dec.outcome, hlegal, hfault, hended]

/-- A micro-operation row runs in the state that selects it (R93). -/
theorem State.decOp_selected {t : Tag} {op : Dec → Micro} {m : Micro} (hr : s.dec.Ready)
    (ht : s.dec.dstate = t) (h : op s.dec = m) : s.decOp (whenSelected t op) = s.deliver m := by
  rw [State.decOp_deliver _ hr, whenSelected, if_pos ht, h]

end

/-- Settles O21: End is a decoder operation that always completes. -/
theorem decoderEndForwardsTheSentinel : Obligations.DecoderEndForwardsTheSentinel :=
  fun _ hr => State.decOp_deliver (fun d => .done (d.push .sentinel).setEnded) hr

/-- Settles O22: an invalid token raises its error with the decoder it was given. -/
theorem decoderInvalidChangesNothing : Obligations.DecoderInvalidChangesNothing :=
  fun _ hr => State.decOp_deliver (fun d => .raised d .invalidInput .token) hr

/-- Settles O9: FLAGS completes on every byte. -/
theorem flagsByteRecordsFinAndOpcode : Obligations.FlagsByteRecordsFinAndOpcode :=
  fun _ _ hr hs => State.decOp_selected hr hs rfl

/-- Settles O11: both indicators complete. -/
theorem extendedIndicatorsStartTheShift : Obligations.ExtendedIndicatorsStartTheShift :=
  fun _ _ hr hs => ⟨State.decOp_selected hr hs rfl, State.decOp_selected hr hs rfl⟩

/-! ### Out of the length phase (R105, R108, R111) -/

section
variable {cap L : Nat} {d : Dec} (m : Bool)

theorem Dec.afterHeader_masked :
    d.afterHeader true L = { d with
      mask := true, length := BitVec.ofNat 64 L, body := List.replicate L 0, cursor := 0,
      dstate := .awaitKey } := rfl

theorem Dec.afterHeader_unmasked (h : L ≠ 0) :
    d.afterHeader false L = { d with
      mask := false, length := BitVec.ofNat 64 L, body := List.replicate L 0, cursor := 0,
      dstate := .awaitBody } :=
  if_neg fun h0 => h h0.2

theorem uLenShort_of_le {l : BitVec 7} (hr : d.Ready) (hcap : l.toNat ≤ cap) :
    uLenShort cap m l d = .done (d.afterHeader m l.toNat) := by
  rw [← enterPayload_eq_afterHeader m d.dstate d.cursor hr hcap (by omega), BitVec.ofNat_toNat]
  rfl

theorem uLenShort_of_gt {l : BitVec 7} (hcap : cap < l.toNat) :
    uLenShort cap m l d =
      .raised { d with mask := m, length := l.setWidth 64, dfault := true } .capacityExceeded
        (.bodyLength l.toNat) := by
  have hl : (l.setWidth 64).toNat = l.toNat := BitVec.toNat_setWidth_of_le (by decide)
  rw [uLenShort, Dec.enterPayload_of_gt (by rwa [hl]), hl]
  rfl

/-- The length byte at shift 0 leaves the length mod 2^32, and enters the payload with it (R8). -/
theorem uExtLen_last {b : Byte} (hc : d.cursor = 0)
    (hL : L = (d.length.toNat ||| b.toNat) % 2 ^ 32) :
    uExtLen cap b d = Dec.enterPayload cap { d with length := BitVec.ofNat 64 L } := by
  have hlen : trunc32 (orLength d b) = BitVec.ofNat 64 L := by
    apply BitVec.eq_of_toNat_eq
    have hb : (b.setWidth 64).toNat = b.toNat := BitVec.toNat_setWidth_of_le (by decide)
    have h64 : L % 2 ^ 64 = L := Nat.mod_eq_of_lt (by omega)
    rw [trunc32_toNat, orLength, hc, BitVec.toNat_ofNat, h64, hL, ← hb, ← BitVec.toNat_or]
    exact congrArg (fun v => (d.length ||| v).toNat % 2 ^ 32) (BitVec.shiftLeft_zero _)
  rw [uExtLen, if_pos hc, hlen]

theorem uExtLen_last_of_le {b : Byte} (hr : d.Ready) (hc : d.cursor = 0)
    (hL : L = (d.length.toNat ||| b.toNat) % 2 ^ 32) (hcap : L ≤ cap) :
    uExtLen cap b d = .done (d.afterHeader d.mask L) := by
  rw [uExtLen_last hc hL]
  exact enterPayload_eq_afterHeader d.mask d.dstate d.cursor hr hcap (by omega)

theorem uExtLen_last_of_gt {b : Byte} (hc : d.cursor = 0)
    (hL : L = (d.length.toNat ||| b.toNat) % 2 ^ 32) (hcap : cap < L) :
    uExtLen cap b d =
      .raised { d with length := BitVec.ofNat 64 L, dfault := true } .capacityExceeded
        (.bodyLength L) := by
  have hlen : (BitVec.ofNat 64 L).toNat = L :=
    (BitVec.toNat_ofNat L 64).trans (Nat.mod_eq_of_lt (by omega))
  rw [uExtLen_last hc hL, Dec.enterPayload_of_gt (by rwa [hlen]), hlen]
  rfl

/-- A length byte before the last is taken at its shift, and the shift drops by 8. -/
theorem uExtLen_of_ne_zero {b : Byte} (hc : 8 ≤ d.cursor.toNat) :
    uExtLen cap b d =
      .done { d with length := orLength d b, cursor := BitVec.ofNat 32 (d.cursor.toNat - 8) } := by
  have hne : d.cursor ≠ 0 := by rintro h; simp [h] at hc
  have hsub : d.cursor - 8 = BitVec.ofNat 32 (d.cursor.toNat - 8) := by bv_omega
  rw [uExtLen, if_neg hne, hsub]

end

/-- Settles O10: within the capacity the byte leaves what `Dec.afterHeader` says, by MASK and by the
length being 0 or not. -/
theorem shortLengthByteEntersThePayload : Obligations.ShortLengthByteEntersThePayload := by
  intro s m l hr hs _
  have entered (hcap : l.toNat ≤ s.params.bodyCapacity) :=
    State.decOp_selected hr hs (uLenShort_of_le m hr hcap)
  refine ⟨?masked, ?unmasked, ?empty, ?exceeded⟩
  case masked =>
    rintro hcap rfl
    rw [Dec.afterHeader_masked, BitVec.ofNat_toNat] at entered
    exact entered hcap
  case unmasked =>
    rintro hcap rfl h0
    have h0' : l.toNat ≠ 0 := fun h => h0 (BitVec.eq_of_toNat_eq h)
    rw [Dec.afterHeader_unmasked h0', BitVec.ofNat_toNat] at entered
    exact entered hcap
  case empty =>
    rintro rfl rfl
    exact entered (Nat.zero_le _)
  case exceeded =>
    exact fun hcap => State.decOp_selected hr hs (uLenShort_of_gt m hcap)

/-- Settles O13: as a short length, with the length that the last byte completes and the MASK that
header byte 1 left. -/
theorem lastLengthByteTruncatesAndEnters : Obligations.LastLengthByteTruncatesAndEnters := by
  intro s b L hr hs hc hL
  have entered (hcap : L ≤ s.params.bodyCapacity) :=
    State.decOp_selected hr hs (uExtLen_last_of_le hr hc hL hcap)
  refine ⟨?masked, ?unmasked, ?empty, ?exceeded⟩
  case masked =>
    intro hcap hm
    rw [hm, Dec.afterHeader_masked, ← hm, ← hc] at entered
    exact entered hcap
  case unmasked =>
    intro hcap hm h0
    rw [hm, Dec.afterHeader_unmasked h0, ← hm, ← hc] at entered
    exact entered hcap
  case empty =>
    intro hm h0
    rw [hm, h0] at entered
    exact entered (Nat.zero_le _)
  case exceeded =>
    exact fun hcap => State.decOp_selected hr hs (uExtLen_last_of_gt hc hL hcap)

/-- Settles O12: the shifts named are all at least 8. -/
theorem lengthByteOrsAtTheShift : Obligations.LengthByteOrsAtTheShift := by
  intro s b hr hs hc
  have h8 : 8 ≤ s.dec.cursor.toNat := by simp at hc; omega
  exact State.decOp_selected hr hs (uExtLen_of_ne_zero h8)

/-! ### The key and the payload (R112 to R115) -/

section
variable {cap : Nat} {d : Dec} {b : Byte}

/-- Emission leaves a decoder that takes tokens as constructed, but for its output (R31, R115). -/
theorem Dec.emit_of_ready (hr : d.Ready) :
    d.emit = { Dec.reset with dout := d.dout ++ [.frame d.record] } := by
  obtain ⟨-, hfault, hended⟩ := hr
  simp [Dec.emit, Dec.sessionReset, Dec.push, Dec.record, Dec.reset, hfault, hended]

theorem Dec.closeKey_of_le (hcap : d.length.toNat ≤ cap) :
    d.closeKey cap = .done (
      if d.length = 0 then
        { d with cursor := 0, body := List.replicate d.length.toNat 0 }.emit
      else
        { d with
          cursor := 0, body := List.replicate d.length.toNat 0, dstate := .awaitMaskedBody }) := by
  rw [Dec.closeKey, Dec.allocate_of_le (d := { d with cursor := 0 }) hcap]

/-- A key byte before the fourth is stored, and the index advances. -/
theorem uKey_of_lt {k : Key} (hk : d.key.put d.cursor.toNat b = some k)
    (hc : d.cursor.toNat < 3) :
    uKey cap b d = .done { d with key := k, cursor := d.cursor + 1 } := by
  have hne : d.cursor + 1 ≠ 4 := by bv_omega
  simp only [uKey, hk, if_neg hne]

/-- The fourth key byte is stored, and the payload is allocated again. -/
theorem uKey_last (hc : d.cursor = 3) (hcap : d.length.toNat ≤ cap) :
    uKey cap b d = .done (
      if d.length = 0 then
        { d with
          key := { d.key with k3 := b }, cursor := 0,
          body := List.replicate d.length.toNat 0 }.emit
      else
        { d with
          key := { d.key with k3 := b }, cursor := 0, body := List.replicate d.length.toNat 0,
          dstate := .awaitMaskedBody }) := by
  have hk : d.key.put d.cursor.toNat b = some { d.key with k3 := b } := by rw [hc]; rfl
  have h4 : d.cursor + 1 = 4 := by rw [hc]; rfl
  simp only [uKey, hk, if_pos h4]
  exact Dec.closeKey_of_le (d := { d with key := { d.key with k3 := b }, cursor := d.cursor + 1 })
    hcap

theorem cursor_succ (c : BitVec 32) : c + 1 = BitVec.ofNat 32 (c.toNat + 1) := by bv_omega

/-- A payload byte before the last is stored, and the index advances. -/
theorem Dec.storeBody_of_lt (hc : d.cursor.toNat + 1 < d.length.toNat)
    (hb : d.body.length = d.length.toNat) :
    d.storeBody b = .done { d with
      body := d.body.set d.cursor.toNat b
      cursor := BitVec.ofNat 32 (d.cursor.toNat + 1) } := by
  have hne : (d.cursor + 1).toNat ≠ d.length.toNat := by bv_omega
  rw [← cursor_succ]
  simp only [Dec.storeBody, putBody_of_lt b (show d.cursor.toNat < d.body.length by omega),
    if_neg hne]

/-- The last payload byte is stored, and the frame is emitted. -/
theorem Dec.storeBody_last (hr : d.Ready) (hc : d.cursor.toNat + 1 = d.length.toNat)
    (h32 : d.length.toNat < 2 ^ 32) (hb : d.body.length = d.length.toNat) :
    d.storeBody b = .done { Dec.reset with
      dout := d.dout ++
        [.frame { d.record with body := d.body.set d.cursor.toNat b }] } := by
  have heq : (d.cursor + 1).toNat = d.length.toNat := by bv_omega
  simp only [Dec.storeBody, putBody_of_lt b (show d.cursor.toNat < d.body.length by omega),
    if_pos heq]
  exact congrArg Micro.done (Dec.emit_of_ready hr)

end

/-- Settles O14: the first three cursors store, the fourth also closes the key, by the length being
0 or not. -/
theorem keyByteFillsTheKeyAndTheFourthOpensTheBody :
    Obligations.KeyByteFillsTheKeyAndTheFourthOpensTheBody := by
  intro s b hr hs hcap
  have stored {k : Key} (i : BitVec 32) (hi : i.toNat < 3) (hk : s.dec.key.put i.toNat b = some k)
      (hc : s.dec.cursor = i) :
      exec (.uopKey b) s = s.deliver (.done { s.dec with key := k, cursor := i + 1 }) :=
    State.decOp_selected hr hs (by subst hc; exact uKey_of_lt hk hi)
  have closed (hc : s.dec.cursor = 3) := State.decOp_selected hr hs (uKey_last (b := b) hc hcap)
  refine ⟨stored 0 (by decide) rfl, stored 1 (by decide) rfl, stored 2 (by decide) rfl,
    fun hc h0 => ?opened, fun hc h0 => ?emitted⟩
  case opened =>
    rw [if_neg h0] at closed
    exact closed hc
  case emitted =>
    rw [if_pos h0, Dec.emit_of_ready (by exact hr), h0] at closed
    exact closed hc

/-- Settles O15: the byte is stored as it comes. -/
theorem bodyByteIsStoredAndTheLastEmits : Obligations.BodyByteIsStoredAndTheLastEmits :=
  fun _ b hr hs _ h32 hb =>
    ⟨fun hc => State.decOp_selected (op := uBody b) hr hs (Dec.storeBody_of_lt hc hb),
      fun hc => State.decOp_selected (op := uBody b) hr hs (Dec.storeBody_last hr hc h32 hb)⟩

/-- Settles O16: the byte stored is XORed with the cyclic key at the cursor, which is the key byte
at the cursor mod 4. -/
theorem maskedBodyByteIsUnmaskedAndStored : Obligations.MaskedBodyByteIsUnmaskedAndStored := by
  intro s b hr hs _ h32 hb k hk
  obtain rfl : s.dec.key.cyclic s.dec.cursor.toNat = k :=
    Option.some.inj ((s.dec.key.bytes_getElem?_mod _).symm.trans hk)
  exact ⟨fun hc => State.decOp_selected (op := uMaskedBody b) hr hs
      (Dec.storeBody_of_lt hc hb),
    fun hc => State.decOp_selected (op := uMaskedBody b) hr hs
      (Dec.storeBody_last hr hc h32 hb)⟩

end Sys2Proof.Machine

/-! PROOFS. Feed is the fold of its bytes (O19), it completes from every state of the invariant (O20),
its first capacity fault splits the chunk (O38), and where a chunk ends does not matter (O46). -/

namespace Sys2Proof.Machine

/-! ### Feed, byte by byte -/

section
variable {cap : Nat} {d d' : Dec} {st : Status} {info : Info}

theorem byteStep_done_ready {b : Byte} (hr : d.Ready) (h : byteStep cap b d = .done d') :
    d'.Ready := by
  have hkeeps := byteStep_keeps cap b d
  rw [h] at hkeeps
  obtain ⟨hended, hfault, hlegal, -⟩ := hkeeps
  exact ⟨hlegal, hfault.trans hr.2.1, hended.trans hr.2.2⟩

theorem feedBytes_done_ready {bs : Bytes} (hr : d.Ready) (h : feedBytes cap bs d = .done d') :
    d'.Ready := by
  induction bs generalizing d with
  | nil => cases h; exact hr
  | cons b bs ih =>
    rw [feedBytes] at h
    split at h
    · exact ih (byteStep_done_ready hr ‹_›) h
    · cases h
    · cases h

theorem feedBytes_append_of_done {xs : Bytes} (ys : Bytes) (h : feedBytes cap xs d = .done d') :
    feedBytes cap (xs ++ ys) d = feedBytes cap ys d' := by
  rw [feedBytes_append, h]

theorem feedBytes_cons_of_done {b : Byte} (bs : Bytes) (h : byteStep cap b d = .done d') :
    feedBytes cap (b :: bs) d = feedBytes cap bs d' :=
  feedBytes_append_of_done bs ((feedBytes_singleton cap b d).trans h)

/-- An error of a chunk is that of one of its bytes, and the bytes before it were taken (R102,
R175). -/
theorem feedBytes_raised {bs : Bytes} (h : feedBytes cap bs d = .raised d' st info) :
    ∃ taken b rest u, bs = taken ++ b :: rest ∧ feedBytes cap taken d = .done u ∧
      byteStep cap b u = .raised d' st info := by
  induction bs generalizing d with
  | nil => cases h
  | cons b bs ih =>
    rw [feedBytes] at h
    split at h
    · rename_i u hstep
      obtain ⟨taken, b', rest, v, rfl, htaken, hb'⟩ := ih h
      exact ⟨b :: taken, b', rest, v, rfl, (feedBytes_cons_of_done _ hstep).trans htaken, hb'⟩
    · cases h
      exact ⟨[], b, bs, d, rfl, rfl, ‹_›⟩
    · cases h

/-- The one error a chunk raises is the capacity fault (R106). -/
theorem feedBytes_raised_capacity {bs : Bytes} (h : feedBytes cap bs d = .raised d' st info) :
    st = .capacityExceeded ∧ d'.dfault = true ∧ ∃ n, info = .bodyLength n ∧ cap < n := by
  obtain ⟨-, b, -, u, -, -, hb⟩ := feedBytes_raised h
  have hkeeps := byteStep_keeps cap b u
  rw [hb] at hkeeps
  obtain ⟨hst, hfault, -, -, -, -, -, -, hinfo⟩ := hkeeps
  exact ⟨hst, hfault, hinfo⟩

/-- A capacity fault leaves a legal tag (R90). -/
theorem feedBytes_raised_legal {bs : Bytes} (hr : d.Ready)
    (h : feedBytes cap bs d = .raised d' st info) : d'.dstate.isReserved = false := by
  obtain ⟨taken, b, -, u, -, htaken, hb⟩ := feedBytes_raised h
  have hkeeps := byteStep_keeps cap b u
  rw [hb] at hkeeps
  obtain ⟨-, -, -, hdstate, -⟩ := hkeeps
  rw [hdstate]
  exact (feedBytes_done_ready hr htaken).1

end

section
variable {s : State} {d : Dec} {st : Status} {info : Info}

theorem State.feed_of_ready (chunk : Bytes) (hr : s.dec.Ready) :
    s.feed chunk = s.deliver (feedBytes s.params.bodyCapacity chunk s.dec) :=
  State.decOp_deliver _ hr

theorem State.deliver_setDec (m : Micro) : (s.setDec d).deliver m = s.deliver m := by
  cases m <;> rfl

/-- What follows taken bytes is fed from the decoder that they leave. -/
theorem State.feed_append_of_done {xs : Bytes} (ys : Bytes) (hr : s.dec.Ready)
    (h : feedBytes s.params.bodyCapacity xs s.dec = .done d) :
    s.feed (xs ++ ys) = (s.setDec d).feed ys := by
  rw [State.feed_of_ready _ hr, feedBytes_append_of_done _ h,
    State.feed_of_ready (s := s.setDec d) ys (feedBytes_done_ready hr h), State.deliver_setDec]
  rfl

/-- What follows an error is discarded. -/
theorem State.feed_append_of_raised {xs : Bytes} (ys : Bytes) (hr : s.dec.Ready)
    (h : feedBytes s.params.bodyCapacity xs s.dec = .raised d st info) :
    s.feed (xs ++ ys) = s.feed xs := by
  rw [State.feed_of_ready _ hr, State.feed_of_ready _ hr, feedBytes_append, h]

theorem State.feed_of_raised {chunk : Bytes} (hr : s.dec.Ready)
    (h : feedBytes s.params.bodyCapacity chunk s.dec = .raised d st info) :
    s.feed chunk = .next { s with
      dec := d
      responses := s.responses ++ [⟨.dec, st, info⟩] } := by
  rw [State.feed_of_ready _ hr, h]
  rfl

/-- A Feed that answers a next state took every byte and returned OK, or raised the capacity
fault. -/
theorem State.feed_cases {t : State} {chunk : Bytes} (hr : s.dec.Ready)
    (h : s.feed chunk = .next t) :
    (∃ d, feedBytes s.params.bodyCapacity chunk s.dec = .done d ∧
      t = { s with dec := d, responses := s.responses ++ [⟨.dec, .ok, .nothing⟩] }) ∨
    ∃ d info, feedBytes s.params.bodyCapacity chunk s.dec = .raised d .capacityExceeded info ∧
      t = { s with dec := d, responses := s.responses ++ [⟨.dec, .capacityExceeded, info⟩] } := by
  rw [State.feed_of_ready _ hr] at h
  cases hm : feedBytes s.params.bodyCapacity chunk s.dec with
  | done d => rw [hm] at h; cases h; exact .inl ⟨d, rfl, rfl⟩
  | raised d st info =>
    obtain ⟨rfl, -⟩ := feedBytes_raised_capacity hm
    rw [hm] at h; cases h; exact .inr ⟨d, info, rfl, rfl⟩
  | stopped r => rw [hm] at h; cases h

end

/-- Settles O19: the first byte is taken and the rest is fed from what it leaves, or it raises the
capacity fault and the rest is discarded. -/
theorem feedTakesItsBytesLeftToRight : Obligations.FeedTakesItsBytesLeftToRight := by
  refine ⟨fun s hr => State.feed_of_done (chunk := []) hr rfl, fun s t b bs hr h hok => ?taken,
    fun s t b bs hr h hok => ?raised⟩
  case taken =>
    obtain ⟨d, hd, rfl⟩ | ⟨d, info, -, rfl⟩ := State.feed_cases hr h
    · exact State.feed_append_of_done bs hr hd
    · simp at hok
  case raised =>
    obtain ⟨d, -, rfl⟩ | ⟨d, info, hd, rfl⟩ := State.feed_cases hr h
    · exact absurd rfl hok
    · exact (State.feed_append_of_raised bs hr hd).trans h

/-- Settles O38: the chunk splits at the byte that raised, which keeps DOUT, `fin` and `opcode`. -/
theorem firstCapacityFaultKeepsEarlierBytes :
    Obligations.FirstCapacityFaultKeepsEarlierBytes := by
  intro s t chunk info hr h hresp
  obtain ⟨d, -, rfl⟩ | ⟨d, info', hd, rfl⟩ := State.feed_cases hr h
  · simp at hresp
  obtain rfl : info' = info := by simpa using hresp
  obtain ⟨taken, b, rest, u, rfl, htaken, hb⟩ := feedBytes_raised hd
  have hkeeps := byteStep_keeps s.params.bodyCapacity b u
  rw [hb] at hkeeps
  obtain ⟨-, hfault, -, -, hdout, hfin, hopcode, -, hinfo⟩ := hkeeps
  have hprefix : feedBytes s.params.bodyCapacity (taken ++ [b]) s.dec =
      .raised d .capacityExceeded info' := by
    rw [feedBytes_append_of_done _ htaken, feedBytes_singleton, hb]
  exact ⟨hfault, taken, b, rest, _, rfl, State.feed_of_done hr htaken, rfl, hdout, hfin, hopcode,
    State.feed_of_raised hr hprefix, hinfo⟩

/-! ### Every chunk is taken at the default capacity (R6, R106) -/

section
variable {cap : Nat} {d e : Dec} {st : Status} {info : Info}

theorem enterPayload_ne_raised (h : d.length.toNat ≤ cap) :
    d.enterPayload cap ≠ .raised e st info := by
  rw [Dec.enterPayload_of_le h]
  exact Micro.noConfusion

theorem uLen_ne_raised (b : Byte) (hcap : 2 ^ 32 - 1 ≤ cap) :
    uLen cap b d ≠ .raised e st info := by
  unfold uLen
  split
  · exact enterPayload_ne_raised (by simp; omega)
  · split <;> exact Micro.noConfusion

theorem uExtLen_ne_raised (b : Byte) (hcap : 2 ^ 32 - 1 ≤ cap) :
    uExtLen cap b d ≠ .raised e st info := by
  unfold uExtLen
  split
  · refine enterPayload_ne_raised ?_
    rw [trunc32_toNat]
    omega
  · exact Micro.noConfusion

theorem uKey_ne_raised (b : Byte) (hl : d.length.toNat ≤ cap) :
    uKey cap b d ≠ .raised e st info := by
  unfold uKey
  split
  · exact Micro.noConfusion
  split
  · rw [Dec.closeKey_of_le (by exact hl)]
    exact Micro.noConfusion
  · exact Micro.noConfusion

theorem storeBody_ne_raised (b : Byte) : d.storeBody b ≠ .raised e st info := by
  unfold Dec.storeBody
  split
  · exact Micro.noConfusion
  · split <;> exact Micro.noConfusion

/-- No length that R40 allows is above the default capacity. -/
theorem byteStep_ne_raised (b : Byte) (hcap : 2 ^ 32 - 1 ≤ cap) (hi : d.PhaseInv) :
    byteStep cap b d ≠ .raised e st info := by
  unfold byteStep
  split <;> rename_i hs
  · exact Micro.noConfusion
  · exact uLen_ne_raised b hcap
  · exact uExtLen_ne_raised b hcap
  · simp only [Dec.PhaseInv, hs] at hi
    obtain ⟨-, -, hlength, -⟩ := hi
    exact uKey_ne_raised b (by omega)
  · exact storeBody_ne_raised b
  · exact storeBody_ne_raised _
  · exact Micro.noConfusion
  · exact Micro.noConfusion

/-- From a state of R40 every chunk is taken, or raises the capacity fault at a capacity below the
default (R106, R121). -/
theorem feedBytes_done_or_raised (chunk : Bytes) (hr : d.Ready) (hinv : d.Inv cap) :
    (∃ e, feedBytes cap chunk d = .done e ∧ e.Ready) ∨
      cap < 2 ^ 32 - 1 ∧ ∃ e n, feedBytes cap chunk d =
        .raised e .capacityExceeded (.bodyLength n) ∧ cap < n ∧ e.dfault = true := by
  have hkept := feedBytes_kept chunk (hinv.phase hr.2.1) hinv.buffer hr.1
  cases hm : feedBytes cap chunk d with
  | done e => exact .inl ⟨e, rfl, feedBytes_done_ready hr hm⟩
  | raised e st info =>
    obtain ⟨rfl, hfault, n, rfl, hn⟩ := feedBytes_raised_capacity hm
    refine .inr ⟨Nat.lt_of_not_le fun hcap => ?_, e, n, rfl, hn, hfault⟩
    obtain ⟨taken, b, -, u, -, htaken, hb⟩ := feedBytes_raised hm
    have htakenKept := feedBytes_kept taken (hinv.phase hr.2.1) hinv.buffer hr.1
    rw [htaken] at htakenKept
    exact byteStep_ne_raised b hcap htakenKept.1 hb
  | stopped r => exact absurd hm (hkept.ne_stopped r)

end

/-- Settles O20: the chunk is taken, or raises the fault, which the default capacity rules out. -/
theorem feedCompletesOnEveryByteSequence : Obligations.FeedCompletesOnEveryByteSequence := by
  intro s chunk hr hinv
  obtain ⟨d, hd, hready⟩ | ⟨hcap, d, n, hd, hn, hfault⟩ := feedBytes_done_or_raised chunk hr hinv
  · exact ⟨_, _, State.feed_of_done hr hd, rfl, rfl, rfl, rfl, fun _ => ⟨rfl, hready.2.1⟩,
      .inl ⟨rfl, hready.2.1⟩⟩
  · exact ⟨_, _, State.feed_of_raised hr hd, rfl, rfl, rfl, rfl,
      fun hdefault => absurd hcap (Nat.not_lt.mpr hdefault), .inr ⟨n, rfl, hn, hfault⟩⟩

/-! ### Feeds in a row (R118) -/

section
variable {s : State}

theorem runOps_feeds_cons {chunk : Bytes} {t : State} (cut : List Bytes)
    (h : s.feed chunk = .next t) :
    runOps ((chunk :: cut).map .decFeed) s = runOps (cut.map .decFeed) t := by
  have hexec : exec (.decFeed chunk) s = .next t := h
  rw [List.map_cons, runOps, hexec]

/-- A decoder that refuses tokens only answers a status (R173, R176). -/
theorem State.feed_of_not_ready (chunk : Bytes) (hlegal : s.dec.dstate.isReserved = false)
    (hr : ¬s.dec.Ready) :
    ∃ r, s.feed chunk = .next { s with responses := s.responses ++ [r] } := by
  cases hfault : s.dec.dfault with
  | true => exact ⟨_, State.decOp_of_dfault _ hlegal hfault⟩
  | false =>
    cases hended : s.dec.ended with
    | true =>
      refine ⟨⟨.dec, .afterEnd, .nothing⟩, ?_⟩
      simp [State.feed, State.decOp, hlegal, hfault, hended, State.raise, State.respond]
    | false => exact absurd ⟨hlegal, hfault, hended⟩ hr

theorem runOps_feeds_of_not_ready (cut : List Bytes) (hlegal : s.dec.dstate.isReserved = false)
    (hr : ¬s.dec.Ready) :
    ∃ rs, runOps (cut.map .decFeed) s = .next { s with responses := s.responses ++ rs } := by
  induction cut generalizing s with
  | nil => exact ⟨[], by simp [runOps]⟩
  | cons chunk cut ih =>
    obtain ⟨r, hfeed⟩ := State.feed_of_not_ready chunk hlegal hr
    obtain ⟨rs, hrun⟩ := ih (s := { s with responses := s.responses ++ [r] }) hlegal hr
    exact ⟨r :: rs, (runOps_feeds_cons _ hfeed).trans (by simpa using hrun)⟩

/-- Chunks whose bytes are all taken leave what one Feed of those bytes leaves. -/
theorem runOps_feeds_of_done {cut : List Bytes} {d : Dec} (hr : s.dec.Ready)
    (h : feedBytes s.params.bodyCapacity cut.flatten s.dec = .done d) :
    runOps (cut.map .decFeed) s = .next { s with
      dec := d
      responses := s.responses ++ List.replicate cut.length ⟨.dec, .ok, .nothing⟩ } := by
  induction cut generalizing s with
  | nil => cases h; simp [runOps]
  | cons chunk cut ih =>
    rw [List.flatten_cons, feedBytes_append] at h
    split at h
    · rename_i u hu
      refine (runOps_feeds_cons _ (State.feed_of_done hr hu)).trans ?_
      refine (ih (s := { s with dec := u, responses := s.responses ++ [_] })
        (feedBytes_done_ready hr hu) h).trans ?_
      simp [List.replicate_succ]
    · cases h
    · cases h

/-- The chunk that holds the faulting byte returns CapacityExceeded; the chunks after it are
refused. -/
theorem runOps_feeds_of_raised {cut : List Bytes} {d : Dec} {st : Status} {info : Info}
    (hr : s.dec.Ready)
    (h : feedBytes s.params.bodyCapacity cut.flatten s.dec = .raised d st info) :
    ∃ rs, runOps (cut.map .decFeed) s = .next { s with
      dec := d
      responses := s.responses ++ rs } ∧ ∃ r ∈ rs, r.status = .capacityExceeded := by
  induction cut generalizing s with
  | nil => cases h
  | cons chunk cut ih =>
    rw [List.flatten_cons, feedBytes_append] at h
    split at h
    · rename_i u hu
      obtain ⟨rs, hrun, r, hmem, hstatus⟩ :=
        ih (s := { s with dec := u, responses := s.responses ++ [⟨.dec, .ok, .nothing⟩] })
          (feedBytes_done_ready hr hu) h
      exact ⟨_ :: rs, (runOps_feeds_cons _ (State.feed_of_done hr hu)).trans (by simpa using hrun),
        r, List.mem_cons_of_mem _ hmem, hstatus⟩
    · rename_i u st' info' hu
      cases h
      obtain ⟨hst, hfault, -⟩ := feedBytes_raised_capacity hu
      have hlegal : d.dstate.isReserved = false := feedBytes_raised_legal hr hu
      obtain ⟨rs, hrun⟩ := runOps_feeds_of_not_ready cut
        (s := { s with dec := d, responses := s.responses ++ [⟨.dec, st, info⟩] }) hlegal
        fun hready => Bool.noConfusion (hfault.symm.trans hready.2.1)
      exact ⟨⟨.dec, st, info⟩ :: rs,
        (runOps_feeds_cons _ (State.feed_of_raised hr hu)).trans (by simpa using hrun),
        _, List.mem_cons_self, hst⟩
    · cases h

/-- From a decoder of the invariant, the decoder after any Feeds is a function of their bytes, and
one of them returns CapacityExceeded exactly when that decoder is at fault. -/
theorem runOps_feeds (bytes : Bytes) (hinv : s.dec.Inv s.params.bodyCapacity) :
    ∃ d : Dec, ∀ cut : List Bytes, cut.flatten = bytes →
      ∃ rs, runOps (cut.map .decFeed) s = .next { s with
          dec := d
          responses := s.responses ++ rs } ∧
        (s.dec.Ready → ((∃ r ∈ rs, r.status = .capacityExceeded) ↔ d.dfault = true)) := by
  by_cases hr : s.dec.Ready
  · obtain ⟨d, hd, hready⟩ | ⟨-, d, n, hd, -, hfault⟩ := feedBytes_done_or_raised bytes hr hinv
    · refine ⟨d, fun cut hcut => ⟨_, runOps_feeds_of_done hr (hcut ▸ hd), fun _ => ?_⟩⟩
      simp [hready.2.1]
    · refine ⟨d, fun cut hcut => ?_⟩
      obtain ⟨rs, hrun, hmem⟩ := runOps_feeds_of_raised hr (hcut ▸ hd)
      exact ⟨rs, hrun, fun _ => iff_of_true hmem hfault⟩
  · refine ⟨s.dec, fun cut _ => ?_⟩
    obtain ⟨rs, hrun⟩ := runOps_feeds_of_not_ready cut hinv.legal hr
    exact ⟨rs, hrun, fun hready => absurd hready hr⟩

end

/-- Settles O46: either cutting leaves the decoder that the bytes leave, with the other fields as they
were. -/
theorem chunkBoundariesDoNotMatter : Obligations.ChunkBoundariesDoNotMatter := by
  intro s cut cut' hinv hflat
  obtain ⟨d, hd⟩ := runOps_feeds cut'.flatten hinv
  obtain ⟨rs, hrun, hcap⟩ := hd cut hflat
  obtain ⟨rs', hrun', hcap'⟩ := hd cut' rfl
  refine ⟨_, _, hrun, hrun', rfl, rfl, fun hr => ?_⟩
  rw [List.drop_left, List.drop_left]
  exact (hcap hr).trans (hcap' hr).symm

end Sys2Proof.Machine

/-! PROOFS. From AWAIT_FLAGS the decoder emits the frame that `parseFrame` reads, and nothing when
that reads none (O47). -/

namespace Sys2Proof.Machine

/-! ### What the parser reads (R119) -/

section
variable {bytes rest tail : Bytes} {r : Frame} {l : BitVec 7}

theorem parseFrame_some (h : parseFrame bytes = some (r, rest)) :
    ∃ b0 b1 tail L afterLength key afterKey, bytes = b0 :: b1 :: tail ∧
      parseLength (bits6to0 b1) tail = some (L, afterLength) ∧
      parseKey (bit7 b1) afterLength = some (key, afterKey) ∧ L ≤ afterKey.length ∧
      r = ⟨bit7 b0, bits3to0 b0, bit7 b1, kindOf (bits3to0 b0), wirePayload key (afterKey.take L)⟩ ∧
      rest = afterKey.drop L := by
  unfold parseFrame at h
  split at h
  · split at h
    · cases h
    split at h
    · cases h
    split at h
    · cases h
    cases h
    exact ⟨_, _, _, _, _, _, _, rfl, ‹_›, ‹_›, by omega, rfl, rfl⟩
  · cases h

/-- The bytes end in the header's first bytes, in the length, in the key, or in the payload. -/
theorem parseFrame_none (h : parseFrame bytes = none) :
    bytes.length ≤ 1 ∨ ∃ b0 b1 tail, bytes = b0 :: b1 :: tail ∧
      (parseLength (bits6to0 b1) tail = none ∨
        ∃ L afterLength, parseLength (bits6to0 b1) tail = some (L, afterLength) ∧
          (parseKey (bit7 b1) afterLength = none ∨
            ∃ key afterKey, parseKey (bit7 b1) afterLength = some (key, afterKey) ∧
              afterKey.length < L)) := by
  match bytes, h with
  | [], _ => exact .inl (Nat.zero_le _)
  | [_], _ => exact .inl Nat.le.refl
  | b0 :: b1 :: tail, h =>
    refine .inr ⟨b0, b1, tail, rfl, ?_⟩
    unfold parseFrame at h
    dsimp only at h
    split at h
    · exact .inl ‹_›
    refine .inr ⟨_, _, ‹_›, ?_⟩
    split at h
    · exact .inl ‹_›
    refine .inr ⟨_, _, ‹_›, ?_⟩
    split at h
    · assumption
    · cases h

theorem parseLength_short (h : shortLength l = true) (tail : Bytes) :
    parseLength l tail = some (l.toNat, tail) :=
  if_pos (of_decide_eq_true h)

theorem parseLength_ext16 (e0 e1 : Byte) (rest : Bytes) :
    parseLength 126 (e0 :: e1 :: rest) = some ((ext16Value e0 e1).toNat, rest) := by
  rw [ext16Value_toNat]
  rfl

theorem parseLength_ext64 (e0 e1 e2 e3 e4 e5 e6 e7 : Byte) (rest : Bytes) :
    parseLength 127 (e0 :: e1 :: e2 :: e3 :: e4 :: e5 :: e6 :: e7 :: rest) =
      some ((ext64Value e0 e1 e2 e3 e4 e5 e6 e7).toNat % 2 ^ 32, rest) := by
  rw [ext64Value_toNat]
  rfl

/-- Behind the indicator 126 a length byte is missing, or there are two. -/
theorem parseLength_ext16_cases (tail : Bytes) :
    tail.length ≤ 1 ∧ parseLength 126 tail = none ∨ ∃ e0 e1 rest, tail = e0 :: e1 :: rest := by
  match tail with
  | [] | [_] => exact .inl ⟨by simp, rfl⟩
  | e0 :: e1 :: rest => exact .inr ⟨_, _, _, rfl⟩

/-- Behind the indicator 127 a length byte is missing, or there are eight. -/
theorem parseLength_ext64_cases (tail : Bytes) :
    tail.length ≤ 7 ∧ parseLength 127 tail = none ∨ ∃ e0 e1 e2 e3 e4 e5 e6 e7 rest,
      tail = e0 :: e1 :: e2 :: e3 :: e4 :: e5 :: e6 :: e7 :: rest := by
  match tail with
  | [] | [_] | [_, _] | [_, _, _] | [_, _, _, _] | [_, _, _, _, _] | [_, _, _, _, _, _]
  | [_, _, _, _, _, _, _] => exact .inl ⟨by simp, rfl⟩
  | e0 :: e1 :: e2 :: e3 :: e4 :: e5 :: e6 :: e7 :: rest =>
    exact .inr ⟨_, _, _, _, _, _, _, _, _, rfl⟩

theorem parseKey_none {m : Bool} {bytes : Bytes} (h : parseKey m bytes = none) :
    m = true ∧ bytes.length ≤ 3 := by
  cases m with
  | false => cases h
  | true =>
    refine ⟨rfl, ?_⟩
    match bytes, h with
    | [], _ | [_], _ | [_, _], _ | [_, _, _], _ => simp
    | _ :: _ :: _ :: _ :: _, h => cases h

end

/-! ### A whole header, a key and a payload, on the decoder's side -/

/-- The decoder behind a header and its key: in the payload, or, when that is empty, at the next
frame with this one emitted (R105, R112). -/
def Dec.atPayload (d : Dec) (key : Option Key) (L : Nat) : Dec :=
  if L = 0 then
    { Dec.reset with
      dout := d.dout ++ [.frame ⟨d.fin, d.opcode, key.isSome, kindOf d.opcode, []⟩] }
  else
    { d with
      mask := key.isSome, length := BitVec.ofNat 64 L, body := List.replicate L 0, cursor := 0,
      key := key.getD d.key, dstate := if key.isSome then .awaitMaskedBody else .awaitBody }

section
variable {cap L : Nat} {d : Dec}

theorem toNat_ofNat_64 (h : L < 2 ^ 32) : (BitVec.ofNat 64 L).toNat = L :=
  (BitVec.toNat_ofNat L 64).trans (Nat.mod_eq_of_lt (by omega))

theorem Dec.afterHeader_unmasked_eq_atPayload : d.afterHeader false L = d.atPayload none L := by
  by_cases h0 : L = 0
  · subst h0; rfl
  · rw [Dec.afterHeader_unmasked h0, Dec.atPayload, if_neg h0]
    rfl

theorem Dec.atPayload_dout {key : Option Key} (h0 : L ≠ 0) :
    (d.atPayload key L).dout = d.dout := by
  rw [Dec.atPayload, if_neg h0]

/-- Header byte 1 and its length bytes leave the length that the parser reads. -/
theorem feedBytes_parseLength {l : BitVec 7} {tail afterLength : Bytes} (m : Bool) (hr : d.Ready)
    (hs : d.dstate = .awaitLen) (h : parseLength l tail = some (L, afterLength)) :
    L < 2 ^ 32 ∧ ∃ ext, tail = ext ++ afterLength ∧
      (L ≤ cap → feedBytes cap (hdr1Byte m l :: ext) d = .done (d.afterHeader m L)) := by
  obtain hl | rfl | rfl := len7_cases l
  · rw [parseLength_short hl] at h
    cases h
    have hle : l.toNat ≤ 125 := of_decide_eq_true hl
    exact ⟨by omega, [], rfl, feedBytes_hdr1Byte_short m hr hs hle⟩
  · obtain ⟨-, hnone⟩ | ⟨e0, e1, rest, rfl⟩ := parseLength_ext16_cases tail
    · rw [hnone] at h; cases h
    rw [parseLength_ext16] at h
    cases h
    exact ⟨by omega, [e0, e1], rfl, feedBytes_hdr1Byte_ext16 m e0 e1 hr hs⟩
  · obtain ⟨-, hnone⟩ | ⟨e0, e1, e2, e3, e4, e5, e6, e7, rest, rfl⟩ :=
      parseLength_ext64_cases tail
    · rw [hnone] at h; cases h
    rw [parseLength_ext64] at h
    cases h
    exact ⟨by omega, [e0, e1, e2, e3, e4, e5, e6, e7], rfl,
      feedBytes_hdr1Byte_ext64 m e0 e1 e2 e3 e4 e5 e6 e7 hr hs⟩

theorem feedBytes_keyByte {b : Byte} {bs : Bytes} {k : Key} (i : BitVec 32) (hi : i.toNat < 3)
    (hs : d.dstate = .awaitKey) (hc : d.cursor = i) (hk : d.key.put i.toNat b = some k) :
    feedBytes cap (b :: bs) d = feedBytes cap bs { d with key := k, cursor := i + 1 } := by
  subst hc
  exact feedBytes_cons_of_done bs ((byteStep_awaitKey cap b hs).trans (uKey_of_lt hk hi))

/-- The four key bytes fill KEY in wire order, and the fourth opens the payload or emits. -/
theorem feedBytes_key (k : Key) (hr : d.Ready) (hL : L < 2 ^ 32) (hcap : L ≤ cap) :
    feedBytes cap k.bytes (d.afterHeader true L) = .done (d.atPayload (some k) L) := by
  have hlen := toNat_ofNat_64 hL
  have hzero : BitVec.ofNat 64 L = 0 ↔ L = 0 := by rw [← BitVec.toNat_inj, hlen]; rfl
  have hfilled : feedBytes cap k.bytes (d.afterHeader true L) = uKey cap k.k3
      { d.afterHeader true L with key := ⟨k.k0, k.k1, k.k2, d.key.k3⟩, cursor := 3 } :=
    (feedBytes_keyByte 0 (by decide) rfl rfl rfl).trans <|
      (feedBytes_keyByte 1 (by decide) rfl rfl rfl).trans <|
        (feedBytes_keyByte 2 (by decide) rfl rfl rfl).trans (feedBytes_singleton ..)
  rw [hfilled, uKey_last rfl (by rw [Dec.afterHeader_masked, hlen]; exact hcap)]
  by_cases h0 : L = 0
  · subst h0
    exact congrArg Micro.done (Dec.emit_of_ready ⟨rfl, hr.2⟩)
  · rw [Dec.atPayload, if_neg h0, Dec.afterHeader_masked, if_neg (by rwa [hzero]), hlen]
    rfl

/-- The whole payload is stored, unmasked with the key if there is one, and the frame is emitted. -/
theorem feedBytes_atPayload {key : Option Key} {payload : Bytes} (hr : d.Ready)
    (hL : L < 2 ^ 32) (hp : payload.length = L) :
    feedBytes cap payload (d.atPayload key L) = .done { Dec.reset with
      dout := d.dout ++
        [.frame ⟨d.fin, d.opcode, key.isSome, kindOf d.opcode, wirePayload key payload⟩] } := by
  obtain rfl | hne := eq_or_ne payload []
  · subst hp; cases key <;> rfl
  have h0 : L ≠ 0 := fun h => hne (List.eq_nil_of_length_eq_zero (hp.trans h))
  have hlen := toNat_ofNat_64 hL
  rw [Dec.atPayload, if_neg h0]
  refine (feedBytes_payload cap payload (by cases key <;> simp) hne (by simpa [hlen] using hp)
    (by rwa [hlen]) (by simp [hlen])).trans ?_
  rw [Dec.emit_of_ready (by cases key <;> exact ⟨rfl, hr.2⟩)]
  cases key <;> rfl

/-- A key that the parser reads is on the wire exactly when MASK is set, and opens the payload. -/
theorem feedBytes_parseKey {m : Bool} {key : Option Key} {bytes afterKey : Bytes} (hr : d.Ready)
    (hL : L < 2 ^ 32) (h : parseKey m bytes = some (key, afterKey)) :
    key.isSome = m ∧ ∃ ks, bytes = ks ++ afterKey ∧
      (L ≤ cap → feedBytes cap ks (d.afterHeader m L) = .done (d.atPayload key L)) := by
  unfold parseKey at h
  split at h
  · obtain rfl : m = true := ‹_›
    split at h
    · rename_i k0 k1 k2 k3 rest
      cases h
      exact ⟨rfl, [k0, k1, k2, k3], rfl, feedBytes_key ⟨k0, k1, k2, k3⟩ hr hL⟩
    · cases h
  · obtain rfl : m = false := by simpa using ‹¬m = true›
    cases h
    exact ⟨rfl, [], rfl,
      fun _ => congrArg Micro.done Dec.afterHeader_unmasked_eq_atPayload⟩

/-- A decoder of R40 that awaits a frame is one just constructed, but for its output (R200). -/
theorem Dec.eq_reset_of_awaitFlags (hr : d.Ready) (hs : d.dstate = .awaitFlags)
    (hi : d.PhaseInv) (dout : List DecEvent) :
    { d with dout := dout } = { Dec.reset with dout := dout } := by
  simp only [Dec.PhaseInv, hs] at hi
  obtain ⟨hcursor, hfin, hopcode, hmask, hlength, hbody, hkey⟩ := hi
  obtain ⟨-, hfault, hended⟩ := hr
  simp only [Dec.reset, hs, hcursor, hfin, hopcode, hmask, hlength, hbody, hkey, hfault, hended]

end

/-! ### Bytes that cannot emit -/

/-- How many bytes a phase still takes before one that may emit a frame (R105, R112 to R114). -/
def Dec.quietBytes (d : Dec) : Nat :=
  match d.dstate with
  | .awaitFlags => 1
  | .awaitExtLen => d.cursor.toNat / 8
  | .awaitKey => 3 - d.cursor.toNat
  | .awaitBody | .awaitMaskedBody => d.length.toNat - d.cursor.toNat - 1
  | .awaitLen | .reserved6 | .reserved7 => 0

section
variable {cap : Nat} {d : Dec}

theorem storeBody_quiet (b : Byte) (hs : d.dstate = .awaitBody ∨ d.dstate = .awaitMaskedBody)
    (h32 : d.length.toNat < 2 ^ 32) (hb : d.body.length = d.length.toNat)
    (h : 0 < d.quietBytes) :
    ∃ e, d.storeBody b = .done e ∧ e.dout = d.dout ∧ d.quietBytes ≤ e.quietBytes + 1 := by
  have hquiet : d.quietBytes = d.length.toNat - d.cursor.toNat - 1 := by
    obtain hs | hs := hs <;> simp only [Dec.quietBytes, hs]
  refine ⟨_, Dec.storeBody_of_lt (by omega) hb, rfl, ?_⟩
  have hcursor : (BitVec.ofNat 32 (d.cursor.toNat + 1)).toNat = d.cursor.toNat + 1 :=
    (BitVec.toNat_ofNat _ 32).trans (Nat.mod_eq_of_lt (by omega))
  rw [hquiet]
  obtain hs | hs := hs <;> simp only [Dec.quietBytes, hs, hcursor] <;> omega

/-- In a payload every byte but the last is quiet. -/
theorem Dec.atPayload_quietBytes {key : Option Key} {L : Nat} (h0 : L ≠ 0) (hL : L < 2 ^ 32) :
    (d.atPayload key L).quietBytes = L - 1 := by
  have hlen := toNat_ofNat_64 hL
  rw [Dec.atPayload, if_neg h0]
  cases key <;> exact congrArg (· - 0 - 1) hlen

/-- A byte before one that may emit is taken, and emits nothing. -/
theorem byteStep_quiet (b : Byte) (hi : d.PhaseInv) (h : 0 < d.quietBytes) :
    ∃ e, byteStep cap b d = .done e ∧ e.dout = d.dout ∧ d.quietBytes ≤ e.quietBytes + 1 := by
  cases hs : d.dstate with
  | awaitFlags =>
    refine ⟨_, byteStep_awaitFlags cap b hs, rfl, ?_⟩
    simp [Dec.quietBytes, hs]
  | awaitExtLen =>
    simp only [Dec.quietBytes, hs] at h
    have h8 : 8 ≤ d.cursor.toNat := by omega
    refine ⟨_, (byteStep_awaitExtLen cap b hs).trans (uExtLen_of_ne_zero h8), rfl, ?_⟩
    simp only [Dec.quietBytes, hs, BitVec.toNat_ofNat]
    omega
  | awaitKey =>
    simp only [Dec.quietBytes, hs] at h
    obtain ⟨k, hk⟩ := keyPut_isSome d.key (i := d.cursor.toNat) b (by omega)
    refine ⟨_, (byteStep_awaitKey cap b hs).trans (uKey_of_lt hk (by omega)), rfl, ?_⟩
    simp only [Dec.quietBytes, hs]
    bv_omega
  | awaitBody =>
    simp only [Dec.PhaseInv, hs] at hi
    obtain ⟨-, -, h32, hb⟩ := hi
    rw [byteStep_awaitBody cap b hs]
    exact storeBody_quiet b (.inl hs) h32 hb h
  | awaitMaskedBody =>
    simp only [Dec.PhaseInv, hs] at hi
    obtain ⟨-, -, h32, hb⟩ := hi
    rw [byteStep_awaitMaskedBody cap b hs]
    exact storeBody_quiet _ (.inr hs) h32 hb h
  | awaitLen | reserved6 | reserved7 => simp [Dec.quietBytes, hs] at h

theorem feedBytes_quiet {bs : Bytes} (hr : d.Ready) (hi : d.PhaseInv) (hb : d.body.length ≤ cap)
    (h : bs.length ≤ d.quietBytes) : ∃ e, feedBytes cap bs d = .done e ∧ e.dout = d.dout := by
  induction bs generalizing d with
  | nil => exact ⟨d, rfl, rfl⟩
  | cons b bs ih =>
    rw [List.length_cons] at h
    obtain ⟨u, hu, hdout, hquiet⟩ := byteStep_quiet b hi (by omega)
    have hkept := byteStep_kept b hi hb hr.1
    rw [hu] at hkept
    obtain ⟨e, he, hdout'⟩ := ih (byteStep_done_ready hr hu) hkept.1 hkept.2.1 (by omega)
    exact ⟨e, (feedBytes_cons_of_done bs hu).trans he, hdout'.trans hdout⟩

/-- Taken bytes that emitted nothing, and then too few to emit, emit nothing. -/
theorem feedBytes_append_quiet {xs ys : Bytes} {u : Dec} (hr : d.Ready) (hi : d.PhaseInv)
    (hb : d.body.length ≤ cap) (hu : feedBytes cap xs d = .done u) (hdout : u.dout = d.dout)
    (h : ys.length ≤ u.quietBytes) :
    ∃ e, feedBytes cap (xs ++ ys) d = .done e ∧ e.dout = d.dout := by
  have hkept := feedBytes_kept xs hi hb hr.1
  rw [hu] at hkept
  obtain ⟨hphase, hbody, -⟩ := hkept
  obtain ⟨e, he, hdout'⟩ := feedBytes_quiet (feedBytes_done_ready hr hu) hphase hbody h
  exact ⟨e, (feedBytes_append_of_done ys hu).trans he, hdout'.trans hdout⟩

/-- When a length byte is missing, the indicator starts a shift that the bytes at hand do not end. -/
theorem byteStep_parseLength_none {l : BitVec 7} {tail : Bytes} (m : Bool)
    (hs : d.dstate = .awaitLen) (h : parseLength l tail = none) :
    ∃ u, byteStep cap (hdr1Byte m l) d = .done u ∧ u.dout = d.dout ∧
      tail.length ≤ u.quietBytes := by
  obtain hl | rfl | rfl := len7_cases l
  · rw [parseLength_short hl] at h; cases h
  · obtain ⟨hlen, -⟩ | ⟨e0, e1, rest, rfl⟩ := parseLength_ext16_cases tail
    · exact ⟨_, byteStep_hdr1Byte cap m 126 hs, rfl, by simpa [Dec.quietBytes] using hlen⟩
    · cases h
  · obtain ⟨hlen, -⟩ | ⟨e0, e1, e2, e3, e4, e5, e6, e7, rest, rfl⟩ :=
      parseLength_ext64_cases tail
    · exact ⟨_, byteStep_hdr1Byte cap m 127 hs, rfl, by simpa [Dec.quietBytes] using hlen⟩
    · cases h

end

/-! ### The frame that the parser reads -/

section
variable {cap : Nat} {d : Dec} {bytes rest : Bytes} {r : Frame}

/-- The bytes that the parser takes from the input are one frame to the decoder, if its body is
within the capacity (R119). -/
theorem feedBytes_parseFrame_some (hr : d.Ready) (hs : d.dstate = .awaitFlags)
    (h : parseFrame bytes = some (r, rest)) :
    r.body.length < 2 ^ 32 ∧ ∃ consumed, bytes = consumed ++ rest ∧
      (r.body.length ≤ cap →
        feedBytes cap consumed d = .done { Dec.reset with dout := d.dout ++ [.frame r] }) := by
  obtain ⟨b0, b1, tail, L, afterLength, key, afterKey, rfl, hlength, hkey, hpayload, rfl, rfl⟩ :=
    parseFrame_some h
  obtain ⟨m, l, rfl⟩ := exists_hdr1Byte b1
  rw [bits6to0_hdr1Byte] at hlength
  rw [bit7_hdr1Byte] at hkey
  have hflags : byteStep cap b0 d = .done { d.takeHdr0 b0 with dstate := .awaitLen } :=
    byteStep_awaitFlags cap b0 hs
  have hready := byteStep_done_ready hr hflags
  obtain ⟨hL, ext, rfl, hext⟩ := feedBytes_parseLength (cap := cap) m hready rfl hlength
  obtain ⟨hm, ks, rfl, hks⟩ := feedBytes_parseKey (cap := cap) hready hL hkey
  have hbody : (wirePayload key (afterKey.take L)).length = L :=
    (wirePayload_length ..).trans (List.length_take_of_le hpayload)
  rw [hbody]
  refine ⟨hL, b0 :: (hdr1Byte m l :: ext) ++ (ks ++ afterKey.take L), by simp, fun hcap => ?_⟩
  rw [List.cons_append, feedBytes_cons_of_done _ hflags, feedBytes_append_of_done _ (hext hcap),
    feedBytes_append_of_done _ (hks hcap),
    feedBytes_atPayload hready hL (List.length_take_of_le hpayload), hm, bit7_hdr1Byte]
  rfl

/-- Bytes that hold no whole frame are taken, and emit nothing (R119). -/
theorem feedBytes_parseFrame_none (hr : d.Ready) (hs : d.dstate = .awaitFlags) (hi : d.PhaseInv)
    (hcap : 2 ^ 32 - 1 ≤ cap) (hnone : parseFrame bytes = none) :
    ∃ e, feedBytes cap bytes d = .done e ∧ e.dout = d.dout := by
  have hb : d.body.length ≤ cap := by
    have hbody := congrArg Dec.body (Dec.eq_reset_of_awaitFlags hr hs hi d.dout)
    exact (congrArg List.length hbody).trans_le (Nat.zero_le _)
  obtain hshort | ⟨b0, b1, tail, rfl, h⟩ := parseFrame_none hnone
  · exact feedBytes_quiet hr hi hb (by simpa only [Dec.quietBytes, hs] using hshort)
  obtain ⟨m, l, rfl⟩ := exists_hdr1Byte b1
  rw [bits6to0_hdr1Byte, bit7_hdr1Byte] at h
  have hflags : byteStep cap b0 d = .done { d.takeHdr0 b0 with dstate := .awaitLen } :=
    byteStep_awaitFlags cap b0 hs
  have hready := byteStep_done_ready hr hflags
  obtain hlength | ⟨L, afterLength, hlength, h⟩ := h
  · obtain ⟨u, hu, hdout, hquiet⟩ := byteStep_parseLength_none (cap := cap)
      (d := { d.takeHdr0 b0 with dstate := .awaitLen }) m rfl hlength
    exact feedBytes_append_quiet (xs := [b0, hdr1Byte m l]) hr hi hb
      ((feedBytes_cons_of_done _ hflags).trans ((feedBytes_singleton ..).trans hu)) hdout hquiet
  obtain ⟨hL, ext, rfl, hext⟩ := feedBytes_parseLength (cap := cap) m hready rfl hlength
  have hLcap : L ≤ cap := by omega
  have hheader := (feedBytes_cons_of_done (hdr1Byte m l :: ext) hflags).trans (hext hLcap)
  obtain hkey | ⟨key, afterKey, hkey, hpayload⟩ := h
  · obtain ⟨rfl, hlen⟩ := parseKey_none hkey
    exact feedBytes_append_quiet hr hi hb hheader rfl hlen
  obtain ⟨-, ks, rfl, hks⟩ := feedBytes_parseKey (cap := cap) hready hL hkey
  have hopened := (feedBytes_append_of_done ks hheader).trans (hks hLcap)
  have h0 : L ≠ 0 := by omega
  rw [show b0 :: hdr1Byte m l :: (ext ++ (ks ++ afterKey)) =
    b0 :: (hdr1Byte m l :: ext) ++ ks ++ afterKey by simp]
  refine feedBytes_append_quiet hr hi hb hopened (Dec.atPayload_dout h0) ?_
  rw [Dec.atPayload_quietBytes h0 hL]
  omega

end

/-- Settles O47: what the parser consumes leaves the decoder just constructed, with the frame in its
output; what is left of a frame that does not end emits nothing. -/
theorem decoderEmitsWhatParseFrameReads : Obligations.DecoderEmitsWhatParseFrameReads := by
  intro s bytes hr hs hi hcap
  refine ⟨fun r rest h => ?frame, fun h => ?incomplete⟩
  case frame =>
    obtain ⟨h32, consumed, rfl, hconsumed⟩ := feedBytes_parseFrame_some hr hs h
    rw [Dec.eq_reset_of_awaitFlags hr hs hi]
    exact State.feed_append_of_done rest hr (hconsumed (by omega))
  case incomplete =>
    obtain ⟨e, he, hdout⟩ := feedBytes_parseFrame_none hr hs hi hcap h
    exact ⟨_, State.feed_of_done hr he, hdout, rfl⟩

end Sys2Proof.Machine

/-! PROOFS. The encoder: what End (O24) and Encode (O27, O28) append and return, that Encode depends
on nothing else (O30), how the header writes the length (O25), and that the decoder reads every frame
back (O48). -/

namespace Sys2Proof.Machine

/-! ### An encoder operation before End (R140) -/

section
variable {s : State} {f : FrameIn}

/-- An encoder that takes tokens runs the operation and returns its status. -/
theorem State.encOp_of_open (op : Enc → Except (Status × Info) Enc) (h : s.enc.eended = false) :
    s.encOp op =
      match op s.enc with
      | .ok e => .next ((s.setEnc e).respond .enc .ok .nothing)
      | .error (st, info) => .next (s.respond .enc st info) := by
  simp only [State.encOp, h, State.raise]
  rfl

theorem exec_encFrame_of_ok {evs : List EncEvent} (h : s.enc.eended = false)
    (hevs : encodeFrame s.params.encMaskSupported f = .ok evs) :
    exec (.encFrame f) s = .next { s with
      enc := { s.enc with eout := s.enc.eout ++ evs }
      responses := s.responses ++ [⟨.enc, .ok, .nothing⟩] } := by
  rw [exec_encFrame, execEncFrame, State.encOp_of_open _ h, hevs]
  rfl

theorem exec_encFrame_of_error {st : Status} {info : Info} (h : s.enc.eended = false)
    (herr : encodeFrame s.params.encMaskSupported f = .error (st, info)) :
    exec (.encFrame f) s = .next { s with
      responses := s.responses ++ [⟨.enc, st, info⟩] } := by
  rw [exec_encFrame, execEncFrame, State.encOp_of_open _ h, herr]
  rfl

/-- An Encode that returns OK has serialized its record. -/
theorem exec_encFrame_ok {t : State} (h : s.enc.eended = false)
    (hexec : exec (.encFrame f) s = .next t)
    (hresp : t.responses = s.responses ++ [⟨.enc, .ok, .nothing⟩]) :
    ∃ evs, encodeFrame s.params.encMaskSupported f = .ok evs ∧
      t = { s with
        enc := { s.enc with eout := s.enc.eout ++ evs }
        responses := s.responses ++ [⟨.enc, .ok, .nothing⟩] } := by
  cases hf : encodeFrame s.params.encMaskSupported f with
  | ok evs =>
    rw [exec_encFrame_of_ok h hf] at hexec
    cases hexec
    exact ⟨evs, rfl, rfl⟩
  | error e =>
    obtain ⟨st, info⟩ := e
    rw [exec_encFrame_of_error h hf] at hexec
    cases hexec
    obtain ⟨rfl, -⟩ : st = .ok ∧ info = .nothing := by simpa using hresp
    obtain ⟨hst, -⟩ | ⟨hst, -⟩ := encodeFrame_error hf <;> cases hst

/-- What Encode appends and returns is settled by the record and the option (R151). -/
theorem exec_encFrame_determined (supported : Bool) (f : FrameIn) :
    ∃ (evs : List EncEvent) (r : Response), ∀ s : State, s.enc.eended = false →
      s.params.encMaskSupported = supported →
      exec (.encFrame f) s = .next { s with
        enc := { s.enc with eout := s.enc.eout ++ evs }
        responses := s.responses ++ [r] } := by
  cases hf : encodeFrame supported f with
  | ok evs =>
    refine ⟨evs, ⟨.enc, .ok, .nothing⟩, fun s h hopt => ?_⟩
    exact exec_encFrame_of_ok h (hopt ▸ hf)
  | error e =>
    refine ⟨[], ⟨.enc, e.1, e.2⟩, fun s h hopt => ?_⟩
    rw [exec_encFrame_of_error h (hopt ▸ hf), List.append_nil]

end

/-- Settles O24: End is an encoder operation that always completes. -/
theorem encoderEndForwardsTheSentinel : Obligations.EncoderEndForwardsTheSentinel :=
  fun _ h => State.encOp_of_open (fun e => .ok (e.push [.sentinel]).setEnded) h

/-- Settles O30: both machines append and return what the record and the option settle. -/
theorem encodeDependsOnRecordAndOptionOnly : Obligations.EncodeDependsOnRecordAndOptionOnly := by
  intro s t s' t' f hs ht hopt hexecS hexecT
  obtain ⟨evs, r, hexec⟩ := exec_encFrame_determined t.params.encMaskSupported f
  rw [hexec s hs hopt] at hexecS
  rw [hexec t ht rfl] at hexecT
  cases hexecS
  cases hexecT
  exact ⟨evs, r, rfl, rfl, rfl, rfl⟩

/-! ### Resolving a record (R143 to R147) -/

section
variable {f : FrameIn} {bytes : Bytes} {isText : Bool} {op : BitVec 4}

theorem resolveFin_eq_getD (fin : Option Bool) : resolveFin fin = fin.getD true := by
  cases fin <;> rfl

theorem resolveMask_eq_getD (mask : Option Bool) : resolveMask mask = mask.getD false := by
  cases mask <;> rfl

theorem resolveBody_eq_ok {body : BodyIn} :
    resolveBody body = .ok (bytes, isText) ↔
      body = .text bytes ∧ isText = true ∨ body = .binary bytes ∧ isText = false := by
  cases body <;> simp [resolveBody, eq_comm]

/-- The bytes do not depend on the body's tag, and `isText` is the tag (R143). -/
theorem resolveBody_of_bytes {body : BodyIn} {bytes' : Bytes}
    (hbody : body = .text bytes ∨ body = .binary bytes)
    (h : resolveBody body = .ok (bytes', isText)) :
    bytes' = bytes ∧ (isText = true ↔ body = .text bytes) := by
  obtain rfl | rfl := hbody <;> cases h <;> simp

/-- `n mod 16` is the number of the 4-bit opcode (R18, R145). -/
theorem ofNat_emod_sixteen_eq_iff (n : Int) :
    BitVec.ofNat 4 (n % 16).toNat = op ↔ (op.toNat : Int) = n % 16 := by
  rw [← BitVec.toNat_inj, BitVec.toNat_ofNat]
  omega

theorem resolveOpcode_eq_ok {opcode : OpcodeIn} :
    resolveOpcode isText opcode = .ok op ↔
      opcode = .absent ∧ op = (if isText then 1 else 2) ∨
        ∃ n : Int, opcode = .num n ∧ (op.toNat : Int) = n % 16 := by
  cases opcode with
  | absent => simp [resolveOpcode, eq_comm]
  | num n => simp [resolveOpcode, ofNat_emod_sixteen_eq_iff]
  | nonNumeric => simp [resolveOpcode]

theorem resolveKey_unmasked (supported : Bool) {mask : Option Bool} (key : Option Key)
    (h : mask ≠ some true) : resolveKey supported (resolveMask mask) key = .ok none := by
  match mask with
  | none | some false => rfl
  | some true => exact absurd rfl h

/-- A record that resolves in every field is serialized (R142). -/
theorem encodeFrame_of_resolved {supported : Bool} {key : Option Key}
    (hbody : resolveBody f.body = .ok (bytes, isText))
    (hopcode : resolveOpcode isText f.opcode = .ok op)
    (hkey : resolveKey supported (resolveMask f.mask) f.key = .ok key) :
    encodeFrame supported f = .ok (frameChunks (f.fin.getD true) op key bytes) := by
  simp only [encodeFrame, hbody, hopcode, hkey, resolveFin_eq_getD]

/-- The payload's chunk is left out exactly when the body is empty (R149). -/
theorem frameChunks_eq (finb : Bool) (op : BitVec 4) (key : Option Key) (bytes : Bytes) :
    frameChunks finb op key bytes =
      .chunk (header finb op key.isSome bytes.length ++ wireKey key) ::
        (if bytes = [] then [] else [.chunk (wirePayload key bytes)]) := by
  cases bytes <;> rfl

end

/-- Settles O27: the record resolves without a key, so the header stands alone in its chunk. -/
theorem unmaskedFrameIsHeaderThenBody : Obligations.UnmaskedFrameIsHeaderThenBody := by
  intro s f bytes isText op h _ hbody hopcode hmask
  have hevs := encodeFrame_of_resolved (resolveBody_eq_ok.mpr hbody)
    (resolveOpcode_eq_ok.mpr hopcode)
    (resolveKey_unmasked s.params.encMaskSupported f.key hmask)
  rw [exec_encFrame_of_ok h hevs, frameChunks_eq]
  simp [wireKey, wirePayload]

/-- Settles O28: the record resolves with its key, which the header's chunk ends in. -/
theorem maskedFrameCarriesItsKey : Obligations.MaskedFrameCarriesItsKey := by
  intro s f k bytes isText op h hopt _ hbody hopcode hmask hkey
  have hresolved : resolveKey s.params.encMaskSupported (resolveMask f.mask) f.key =
      .ok (some k) := by
    rw [hopt, hmask, hkey]; rfl
  have hevs := encodeFrame_of_resolved (resolveBody_eq_ok.mpr hbody)
    (resolveOpcode_eq_ok.mpr hopcode) hresolved
  rw [exec_encFrame_of_ok h hevs, frameChunks_eq]
  rfl

/-! ### The header (R148) -/

/-- With RSV 0, header byte 0 is a sum (R71). -/
theorem hdr0Byte_eq_sum (f : Bool) (o : BitVec 4) :
    hdr0Byte f 0 o = BitVec.ofNat 8 (f.toNat * 128 + o.toNat) := by
  revert f o; decide

/-- Header byte 1 is a sum (R72). -/
theorem hdr1Byte_eq_sum (m : Bool) (l : BitVec 7) :
    hdr1Byte m l = BitVec.ofNat 8 (m.toNat * 128 + l.toNat) := by
  revert m l; decide

/-- A byte keeps a number mod 2^8 (R12). -/
theorem byte_congr {m n : Nat} (h : m % 2 ^ 8 = n % 2 ^ 8) : BitVec.ofNat 8 m = BitVec.ofNat 8 n :=
  ofNat_eq_byte (h.trans (BitVec.toNat_ofNat n 8).symm)

/-- Bytes of EXT16 as quotient and remainder (R13, R73). -/
theorem be2_eq_quotients (L : Nat) :
    be2 L = [BitVec.ofNat 8 (L / 256), BitVec.ofNat 8 (L % 256)] := by
  rw [be2, Nat.shiftRight_eq_div_pow, byte_congr (Nat.mod_mod L (2 ^ 8)).symm]
  rfl

/-- Bytes of EXT64 as quotients (R13, R74): the low half's quotients are those of the whole. -/
theorem be8_eq_quotients (L : Nat) :
    be8 L = [BitVec.ofNat 8 (L / 256 ^ 7), BitVec.ofNat 8 (L / 256 ^ 6),
      BitVec.ofNat 8 (L / 256 ^ 5), BitVec.ofNat 8 (L / 256 ^ 4), BitVec.ofNat 8 (L / 256 ^ 3),
      BitVec.ofNat 8 (L / 256 ^ 2), BitVec.ofNat 8 (L / 256), BitVec.ofNat 8 L] := by
  simp only [be8, be4, Nat.shiftRight_eq_div_pow, List.cons_append, List.nil_append,
    List.cons.injEq, and_true]
  refine ⟨?_, ?_, ?_, ?_, ?_, ?_, ?_, ?_⟩ <;> exact byte_congr (by omega)

section
variable {L : Nat}

theorem lenField_toNat_of_lt (h : L < 126) : (lenField L).toNat = L := by
  rw [lenField, if_pos h, BitVec.toNat_ofNat]
  omega

theorem header_short (finb : Bool) (op : BitVec 4) (maskb : Bool) (h : L < 126) :
    header finb op maskb L = [hdr0Byte finb 0 op, hdr1Byte maskb (lenField L)] := by
  simp [header, lenExt, h]

theorem header_ext16 (finb : Bool) (op : BitVec 4) (maskb : Bool) (h126 : 126 ≤ L)
    (h : L < 65536) :
    header finb op maskb L = [hdr0Byte finb 0 op, hdr1Byte maskb 126] ++ be2 L := by
  simp [header, lenField, lenExt, Nat.not_lt.mpr h126, h]

theorem header_ext64 (finb : Bool) (op : BitVec 4) (maskb : Bool) (h : 65536 ≤ L) :
    header finb op maskb L = [hdr0Byte finb 0 op, hdr1Byte maskb 127] ++ be8 L := by
  simp [header, lenField, lenExt, Nat.not_lt.mpr h, show ¬L < 126 by omega]

end

/-- Settles O25: each form's two header bytes are sums, and its length bytes quotients. -/
theorem headerFollowsTheLengthForms : Obligations.HeaderFollowsTheLengthForms := by
  rintro finb maskb op L b0 rfl
  refine ⟨fun h => ?short, fun h126 h => ?ext16, fun h _ => ?ext64⟩
  case short =>
    rw [header_short finb op maskb h, hdr0Byte_eq_sum, hdr1Byte_eq_sum, lenField_toNat_of_lt h]
  case ext16 =>
    rw [header_ext16 finb op maskb h126 h, hdr0Byte_eq_sum, hdr1Byte_eq_sum, be2_eq_quotients]
    rfl
  case ext64 =>
    rw [header_ext64 finb op maskb h, hdr0Byte_eq_sum, hdr1Byte_eq_sum, be8_eq_quotients]
    rfl

/-! ### The parser reads every frame back (R94, R119) -/

section
variable {finb : Bool} {op : BitVec 4} {key : Option Key} {payload : Bytes}

/-- A length below 2^32 is read back from its minimal form (R80). -/
theorem parseLength_lenExt {L : Nat} (hL : L < 2 ^ 32) (rest : Bytes) :
    parseLength (lenField L) (lenExt L ++ rest) = some (L, rest) := by
  unfold lenExt
  split
  case isTrue h =>
    have hfield := lenField_toNat_of_lt h
    rw [parseLength_short (decide_eq_true (by omega)), hfield, List.nil_append]
  case isFalse h126 =>
    split
    case isTrue h =>
      obtain ⟨e0, e1, he⟩ := exists_ext16Value (BitVec.ofNat 16 L)
      obtain rfl : L = (ext16Value e0 e1).toNat := by rw [← he, BitVec.toNat_ofNat]; omega
      rw [lenField, if_neg h126, if_pos h, be2_ext16Value]
      exact parseLength_ext16 e0 e1 rest
    case isFalse h =>
      obtain ⟨e0, e1, e2, e3, e4, e5, e6, e7, he⟩ := exists_ext64Value (BitVec.ofNat 64 L)
      obtain rfl : L = (ext64Value e0 e1 e2 e3 e4 e5 e6 e7).toNat := by
        rw [← he, BitVec.toNat_ofNat]; omega
      rw [lenField, if_neg h126, if_neg h, be8_ext64Value]
      refine (parseLength_ext64 e0 e1 e2 e3 e4 e5 e6 e7 rest).trans ?_
      rw [Nat.mod_eq_of_lt hL]

theorem parseKey_wireKey (key : Option Key) (rest : Bytes) :
    parseKey key.isSome (wireKey key ++ rest) = some (key, rest) := by
  cases key <;> rfl

/-- The serialization of a frame is parsed as that frame, whatever follows it (R94). -/
theorem parseFrame_wireFrame (hL : payload.length < 2 ^ 32) (rest : Bytes) :
    parseFrame (wireFrame finb op key payload ++ rest) =
      some (⟨finb, op, key.isSome, kindOf op, payload⟩, rest) := by
  have hlen := wirePayload_length key payload
  rw [wireFrame, header]
  simp only [List.append_assoc, List.cons_append, List.nil_append, parseFrame, bits6to0_hdr1Byte,
    bit7_hdr1Byte, bit7_hdr0Byte, bits3to0_hdr0Byte, parseLength_lenExt hL, parseKey_wireKey]
  rw [if_neg (by simp), List.take_left' hlen, List.drop_left' hlen, wirePayload_wirePayload]

/-- A frame on the wire is one frame to the decoder (R94, R119). -/
theorem feedBytes_wireFrame {cap : Nat} {d : Dec} (hr : d.Ready) (hs : d.dstate = .awaitFlags)
    (hL : payload.length < 2 ^ 32) (hcap : payload.length ≤ cap) :
    feedBytes cap (wireFrame finb op key payload) d = .done { Dec.reset with
      dout := d.dout ++ [.frame ⟨finb, op, key.isSome, kindOf op, payload⟩] } := by
  obtain ⟨-, consumed, hconsumed, hfeed⟩ :=
    feedBytes_parseFrame_some (cap := cap) hr hs (parseFrame_wireFrame hL [])
  rw [List.append_cancel_right hconsumed]
  exact hfeed hcap

/-- The chunks of one frame hold its bytes on the wire (R149). -/
theorem chunkBytes_frameChunks (finb : Bool) (op : BitVec 4) (key : Option Key) (bytes : Bytes) :
    chunkBytes (frameChunks finb op key bytes) = wireFrame finb op key bytes := by
  rw [frameChunks_eq, wireFrame]
  split
  case isTrue h => subst h; cases key <;> simp [chunkBytes, wirePayload, maskFrom]
  case isFalse => simp [chunkBytes]

end

/-- Settles O48: an OK status means the record resolved, its chunks hold one frame on the wire, and
that frame's bytes, in any cutting, leave the decoder just constructed with the frame in its output. -/
theorem encodedFrameRoundTrips : Obligations.EncodedFrameRoundTrips := by
  intro s t f bytes cut evs h hr hs hi hbody hL hcap hexec hresp heout hcut
  obtain ⟨evs', hevs', rfl⟩ := exec_encFrame_ok h hexec hresp
  obtain rfl : evs' = evs := List.append_cancel_left heout
  obtain ⟨bytes', isText, op, key, hbody', hopcode, hkey, rfl⟩ := encodeFrame_ok hevs'
  obtain ⟨rfl, hisText⟩ := resolveBody_of_bytes hbody hbody'
  simp only [resolveOpcode_eq_ok, hisText] at hopcode
  rw [chunkBytes_frameChunks] at hcut
  have hfed := feedBytes_wireFrame (finb := resolveFin f.fin) (op := op) (key := key) hr hs hL hcap
  rw [← hcut] at hfed
  refine ⟨_, op, runOps_feeds_of_done hr hfed, hopcode, ?_⟩
  rw [Dec.eq_reset_of_awaitFlags hr hs hi, resolveFin_eq_getD, resolveKey_isSome hkey,
    resolveMask_eq_getD]
  rfl

end Sys2Proof.Machine

/-! PROOFS. The errors of both units: Encode's checks in their order (O29), what End refuses (O35),
and that an error other than the first capacity fault only returns its status (O37). -/

namespace Sys2Proof.Machine

/-! ### Encode's checks (R177) -/

section
variable {supported : Bool} {f : FrameIn}

theorem resolveBody_of_ne_invalid {body : BodyIn} (h : body ≠ .invalid) :
    ∃ bytes isText, resolveBody body = .ok (bytes, isText) := by
  cases body with
  | text bs => exact ⟨bs, true, rfl⟩
  | binary bs => exact ⟨bs, false, rfl⟩
  | invalid => exact absurd rfl h

theorem resolveOpcode_of_ne_nonNumeric {opcode : OpcodeIn} (isText : Bool)
    (h : opcode ≠ .nonNumeric) : ∃ op, resolveOpcode isText opcode = .ok op := by
  cases opcode with
  | absent => exact ⟨_, rfl⟩
  | num n => exact ⟨_, rfl⟩
  | nonNumeric => exact absurd rfl h

/-- A mask that is asked for needs the option and a key (R146). -/
theorem resolveKey_of_refused {key : Option Key} (h : supported = false ∨ key = none) :
    resolveKey supported true key = .error (.unsupported, .nothing) := by
  obtain rfl | rfl := h
  · rfl
  · cases supported <;> rfl

theorem encodeFrame_of_invalid (hbody : f.body = .invalid) :
    encodeFrame supported f = .error (.invalidInput, .body) := by
  simp only [encodeFrame, hbody, resolveBody]

theorem encodeFrame_of_nonNumeric (hbody : f.body ≠ .invalid) (hopcode : f.opcode = .nonNumeric) :
    encodeFrame supported f = .error (.invalidInput, .opcode) := by
  obtain ⟨bytes, isText, hbytes⟩ := resolveBody_of_ne_invalid hbody
  simp only [encodeFrame, hbytes, hopcode, resolveOpcode]

theorem encodeFrame_of_refusedMask (hbody : f.body ≠ .invalid) (hopcode : f.opcode ≠ .nonNumeric)
    (hmask : f.mask = some true) (hkey : supported = false ∨ f.key = none) :
    encodeFrame supported f = .error (.unsupported, .nothing) := by
  obtain ⟨bytes, isText, hbytes⟩ := resolveBody_of_ne_invalid hbody
  obtain ⟨op, hop⟩ := resolveOpcode_of_ne_nonNumeric isText hopcode
  simp only [encodeFrame, hbytes, hop, hmask, resolveMask, resolveKey_of_refused hkey]

end

/-- Settles O29: each check is reached when the earlier ones pass, and its error is returned. -/
theorem encoderErrorsInTheirOrder : Obligations.EncoderErrorsInTheirOrder := by
  intro s f h
  refine ⟨fun hbody => ?body, fun hbody hopcode => ?opcode,
    fun hbody hopcode hmask hkey => ?mask⟩
  case body => exact exec_encFrame_of_error h (encodeFrame_of_invalid hbody)
  case opcode => exact exec_encFrame_of_error h (encodeFrame_of_nonNumeric hbody hopcode)
  case mask =>
    exact exec_encFrame_of_error h (encodeFrame_of_refusedMask hbody hopcode hmask hkey)

/-! ### After End (R173) -/

/-- With `ended` set a decoder operation only returns AfterEnd, whatever it would run (R100). -/
theorem State.decOp_of_ended {s : State} (op : Dec → Micro)
    (hlegal : s.dec.dstate.isReserved = false) (hfault : s.dec.dfault = false)
    (hended : s.dec.ended = true) : s.decOp op = .next (s.respond .dec .afterEnd .nothing) := by
  simp only [State.decOp, hlegal, hfault, hended, State.raise]
  rfl

/-- With `eended` set an encoder operation only returns AfterEnd, whatever it would run (R140). -/
theorem State.encOp_of_eended {s : State} (op : Enc → Except (Status × Info) Enc)
    (h : s.enc.eended = true) : s.encOp op = .next (s.respond .enc .afterEnd .nothing) :=
  if_pos h

/-- Settles O35: every operation goes through its unit's check of the end flag. -/
theorem afterEndEveryOperationIsRefused : Obligations.AfterEndEveryOperationIsRefused := by
  refine ⟨fun s i hlegal hfault hended hi => ?dec, fun s i hended hi => ?enc⟩
  case dec =>
    obtain ⟨op, hop⟩ := exec_decoderOperation hi
    rw [hop s]
    exact State.decOp_of_ended _ hlegal hfault hended
  case enc =>
    obtain ⟨op, hop⟩ := exec_encoderOperation hi s
    rw [hop]
    exact State.encOp_of_eended _ hended

/-! ### Errors are precise (R174) -/

/-- A micro-step's error writes nothing, unless it is the capacity fault (R174, R175). -/
def Micro.Precise (d : Dec) (m : Micro) : Prop :=
  ∀ d' st info, m = .raised d' st info → d' = d ∨ st = .capacityExceeded

theorem Micro.Keeps.precise {cap : Nat} {d : Dec} {m : Micro} (h : m.Keeps cap d) :
    m.Precise d := by
  rintro d' st info rfl
  obtain ⟨hst, -⟩ := h
  exact .inr hst

theorem feedBytes_precise (cap : Nat) (bs : Bytes) (d : Dec) : (feedBytes cap bs d).Precise d :=
  fun _ _ _ h => .inr (feedBytes_raised_capacity h).1

theorem whenSelected_precise {t : Tag} {op : Dec → Micro} {d : Dec}
    (h : d.dstate = t → (op d).Precise d) : (whenSelected t op d).Precise d := by
  unfold whenSelected
  split
  · exact h ‹_›
  · intro _ _ _ hraised
    cases hraised

/-- What an operation may leave: one response, which is OK, or all that changes, or the first
capacity fault (R174, R175). -/
def State.RespondsPrecisely (s t : State) : Prop :=
  ∃ r : Response, t.responses = s.responses ++ [r] ∧
    (r.status = .ok ∨ t = { s with responses := s.responses ++ [r] } ∨
      r.status = .capacityExceeded ∧ s.dec.dfault = false)

section
variable {i : Instr} {s t : State}

theorem State.decOp_respondsPrecisely {op : Dec → Micro} (hop : (op s.dec).Precise s.dec)
    (h : s.decOp op = .next t) : s.RespondsPrecisely t := by
  obtain ⟨-, rfl⟩ | ⟨-, -, rfl⟩ | ⟨-, d, -, rfl⟩ | ⟨hr, d, st, info, hraised, rfl⟩ :=
    State.decOp_cases h
  · exact ⟨_, rfl, .inr (.inl rfl)⟩
  · exact ⟨_, rfl, .inr (.inl rfl)⟩
  · exact ⟨_, rfl, .inl rfl⟩
  · obtain ⟨-, hfault, -⟩ := hr
    obtain rfl | hst := hop d st info hraised
    · exact ⟨_, rfl, .inr (.inl rfl)⟩
    · exact ⟨_, rfl, .inr (.inr ⟨hst, hfault⟩)⟩

theorem State.encOp_respondsPrecisely {op : Enc → Except (Status × Info) Enc}
    (h : s.encOp op = .next t) : s.RespondsPrecisely t := by
  obtain ⟨-, rfl⟩ | ⟨-, e, -, rfl⟩ | ⟨-, st, info, -, rfl⟩ := State.encOp_cases h
  · exact ⟨_, rfl, .inr (.inl rfl)⟩
  · exact ⟨_, rfl, .inl rfl⟩
  · exact ⟨_, rfl, .inr (.inl rfl)⟩

/-- No decoder operation raises an imprecise error but the capacity fault. -/
theorem exec_decoderOperation_respondsPrecisely (hi : decoderOperation i = true)
    (h : exec i s = .next t) : s.RespondsPrecisely t := by
  obtain rfl | rfl | ⟨tag, htag⟩ | ⟨chunk, hchunk⟩ := decoderOperation_cases hi
  · refine State.decOp_respondsPrecisely (op := fun d => .done (d.push .sentinel).setEnded) ?_ h
    intro _ _ _ hraised
    cases hraised
  · refine State.decOp_respondsPrecisely (op := fun d => .raised d .invalidInput .token) ?_ h
    intro _ _ _ hraised
    cases hraised
    exact .inl rfl
  · obtain ⟨op, hexec, hkeeps⟩ := exec_of_microOperationTag htag
    exact State.decOp_respondsPrecisely
      (whenSelected_precise fun hd => (hkeeps _ _ hd).precise) (hexec s ▸ h)
  · exact State.decOp_respondsPrecisely (feedBytes_precise _ chunk _) (hchunk s ▸ h)

/-- An instruction that returns a status is no construction, and its unit responds precisely. -/
theorem exec_respondsPrecisely {r : Response} (h : exec i s = .next t)
    (hresp : t.responses = s.responses ++ [r]) : s.RespondsPrecisely t := by
  have hsilent : t.responses ≠ s.responses := by simp [hresp]
  obtain (hi | rfl) | (hi | rfl) := exec_next_kind h
  · exact exec_decoderOperation_respondsPrecisely hi h
  · cases h; exact absurd rfl hsilent
  · obtain ⟨op, hop⟩ := exec_encoderOperation hi s
    exact State.encOp_respondsPrecisely (hop ▸ h)
  · cases h; exact absurd rfl hsilent

end

/-- Settles O37: the response is the one returned, and of what a response may come with, the named
errors leave only the unchanged state. -/
theorem errorsArePrecise : Obligations.ErrorsArePrecise := by
  intro s t i r h hresp herr
  obtain ⟨r', hresp', hprecise⟩ := exec_respondsPrecisely h hresp
  obtain rfl : r' = r := by simpa using hresp'.symm.trans hresp
  obtain hok | hsame | ⟨hst, hfault⟩ := hprecise
  · simp [hok] at herr
  · exact hsame
  · simp [hst, hfault] at herr

end Sys2Proof.Machine

/-! PROOFS. Reset and construction (R200, R201): the values of the state after reset (O1), what each
construction token does (O23), and the invariant at reset (O43). -/

namespace Sys2Proof.Machine

/-! ### The state after reset -/

@[simp] theorem State.reset_dec : State.reset.dec = Dec.reset := rfl
@[simp] theorem State.reset_enc : State.reset.enc = Enc.reset := rfl
@[simp] theorem State.reset_params : State.reset.params = Params.standard := rfl
@[simp] theorem State.reset_input : State.reset.input = [] := rfl
@[simp] theorem State.reset_responses : State.reset.responses = [] := rfl

/-- Settles O1: the units of the reset state are just constructed and its parameters are R6's
defaults, so every register is read off those records. -/
theorem resetHoldsTheConstructionValues : Obligations.ResetHoldsTheConstructionValues := by
  simp [Obligations.ResetHoldsTheConstructionValues, Dec.reset, Enc.reset, Params.standard]

/-! ### The construction tokens -/

section
variable (s : State)

/-- DEC_RESET constructs the decoder, in every phase and whatever the sticky flags (R200). -/
theorem exec_decReset : exec .decReset s = .next (s.setDec Dec.reset) := rfl

/-- ENC_RESET constructs the encoder, before and after End (R201). -/
theorem exec_encReset : exec .encReset s = .next (s.setEnc Enc.reset) := rfl

end

/-- Settles O23: each construction token writes its own unit only, with the values of `Dec.reset`
and `Enc.reset`. -/
theorem constructionResetsItsUnitOnly : Obligations.ConstructionResetsItsUnitOnly :=
  fun s => ⟨exec_decReset s, exec_encReset s⟩

/-! ### The invariant at reset -/

/-- Settles O43: each unit's part of the invariant holds at its construction. -/
theorem resetMeetsTheInvariant : Obligations.ResetMeetsTheInvariant :=
  State.inv_iff.mpr ⟨.reset _, .reset⟩

end Sys2Proof.Machine
